-- ==== Sys2Proof/Word.lean ====
section
/-! DEFINITION. The words of the decoder: bytes, the 32-bit words of the register block, and the pixel. -/

namespace Sys2Proof

/-- `u8` of 00_scope.md R9. -/
abbrev Byte := BitVec 8

/-- A 32-bit interface register, and a `LEN_W`-bit length, offset or cursor (00_scope.md R6: `LEN_W` is 32). -/
abbrev Word32 := BitVec 32

/-- A pixel: four 8-bit channels (10_state.md R20). -/
structure Pixel where
  r : Byte
  g : Byte
  b : Byte
  a : Byte
  deriving DecidableEq, Repr

/-- The source's "opaque black" (10_state.md R21). -/
def Pixel.opaqueBlack : Pixel := ⟨0, 0, 0, 255⟩

/-- The source's "transparent black" (10_state.md R23). -/
def Pixel.transparentBlack : Pixel := ⟨0, 0, 0, 0⟩

end Sys2Proof
end

