-- ==== Sys2Proof/Syntax.lean ====
section
/-! DEFINITION. The instructions: one constructor per row of spec/opcode_table.json. The operands are the encoding's
fields as they stand in the token (30_encoding.md R72); Machine/Operands.lean takes the biases off (R74). -/

namespace Sys2Proof

inductive Instr where
  /-- `OP_RGB` (42_literal_tokens.md R140). -/
  | rgb (r g b : Byte)
  /-- `OP_RGBA` (42_literal_tokens.md R142). -/
  | rgba (r g b a : Byte)
  /-- `OP_INDEX` (43_cache_token.md R150). -/
  | index (i : BitVec 6)
  /-- `OP_DIFF` (44_delta_tokens.md R161), fields `DR`, `DG`, `DB`. -/
  | diff (dr dg db : BitVec 2)
  /-- `OP_LUMA` (44_delta_tokens.md R163), fields `DG`, `DRG`, `DBG`. -/
  | luma (dg : BitVec 6) (drg dbg : BitVec 4)
  /-- `OP_RUN` (45_run_token.md R171), field `L`. -/
  | run (l : BitVec 6)
  /-- A write of `CTRL` with `CMD = 1` (40_commands.md R104). -/
  | parseHeader
  /-- A write of `CTRL` with `CMD = 2` (40_commands.md R105). -/
  | decode
  /-- A write of `CTRL` with `CMD = 3` (40_commands.md R106). -/
  | decodeWithDescriptor
  deriving DecidableEq, Repr

end Sys2Proof
end

