-- ==== Sys2Proof/WellFormed.lean ====
section
/-! DEFINITION. Which instructions have an encoding. -/

namespace Sys2Proof

/-- Every operand value of every instruction is legal (30_encoding.md R76) but `L = 62` and `L = 63` of a run, whose
byte would be `0xFE` or `0xFF`, the two literal sentinels (30_encoding.md R72). -/
def Instr.wellFormed : Instr → Bool
  | .rgb _ _ _ => true
  | .rgba _ _ _ _ => true
  | .index _ => true
  | .diff _ _ _ => true
  | .luma _ _ _ => true
  | .run l => decide (l.toNat ≤ 61)
  | .parseHeader => true
  | .decode => true
  | .decodeWithDescriptor => true

end Sys2Proof
end

