-- ==== Sys2Proof/Decode.lean ====
section
/-! DEFINITION. The dispatcher and decoder of the opcode stream, the decoder of a CTRL write, and the encoder. -/

namespace Sys2Proof

/-- The six kinds of token (30_encoding.md R73). -/
inductive TokenKind where
  | rgb | rgba | index | diff | luma | run
  deriving DecidableEq, Repr

/-- The kind of a token by its first byte: the two exact sentinels first, then the two leading bits
(30_encoding.md R73; conflict C1: the run row is 0xC0..0xFD). -/
def kind (b0 : Byte) : TokenKind :=
  if b0 = 0xFE#8 then .rgb
  else if b0 = 0xFF#8 then .rgba
  else
    match (b0.extractLsb' 6 2).toNat with
    | 0 => .index
    | 1 => .diff
    | 2 => .luma
    | _ => .run

/-- The length in bytes of each kind of token (30_encoding.md R72). -/
def TokenKind.length : TokenKind → Nat
  | .rgb => 4
  | .rgba => 5
  | .index => 1
  | .diff => 1
  | .luma => 2
  | .run => 1

/-- `len(b0)`: a token's length is a function of its first byte alone (30_encoding.md R75). -/
def tokenLength (b0 : Byte) : Nat := (kind b0).length

/-- Why a decoder gives no instruction. -/
inductive Reject where
  /-- No byte to read. -/
  | noBytes
  /-- The first byte names a token that has more bytes than are left. -/
  | truncated (kind : TokenKind)
  /-- `CMD = 0`: the write is ignored (10_state.md R31). -/
  | nop
  deriving DecidableEq, Repr

/-- The token of a kind, from its first byte and the bytes that follow (30_encoding.md R72, R74), which are taken in
stream order (20_memory.md R54).
The answer is the instruction and the bytes left after it. -/
def decodeFields (b0 : Byte) (rest : List Byte) : TokenKind → Except Reject (Instr × List Byte)
  | .rgb =>
    match rest with
    | r :: g :: b :: rest => .ok (.rgb r g b, rest)
    | _ => .error (.truncated .rgb)
  | .rgba =>
    match rest with
    | r :: g :: b :: a :: rest => .ok (.rgba r g b a, rest)
    | _ => .error (.truncated .rgba)
  | .index => .ok (.index (b0.extractLsb' 0 6), rest)
  | .diff => .ok (.diff (b0.extractLsb' 4 2) (b0.extractLsb' 2 2) (b0.extractLsb' 0 2), rest)
  | .luma =>
    match rest with
    | b1 :: rest => .ok (.luma (b0.extractLsb' 0 6) (b1.extractLsb' 4 4) (b1.extractLsb' 0 4), rest)
    | _ => .error (.truncated .luma)
  | .run => .ok (.run (b0.extractLsb' 0 6), rest)

/-- The decoder of the opcode stream: the first byte selects the kind (30_encoding.md R73). -/
def decodeToken : List Byte → Except Reject (Instr × List Byte)
  | [] => .error .noBytes
  | b0 :: rest => decodeFields b0 rest (kind b0)

/-- What a write of `w` to `CTRL` commands: `CMD` is bits 1..0, the other bits are ignored (10_state.md R31). -/
def decodeCtrl (w : Word32) : Except Reject Instr :=
  match (w.extractLsb' 0 2).toNat with
  | 0 => .error .nop
  | 1 => .ok .parseHeader
  | 2 => .ok .decode
  | _ => .ok .decodeWithDescriptor

/-- An instruction's words: the bytes of a token in the opcode stream, or the 32-bit word of a CTRL write. -/
inductive Encoded where
  | token (bytes : List Byte)
  | ctrlWrite (w : Word32)
  deriving DecidableEq, Repr

/-- The bytes or the word of an instruction, from the layouts of 30_encoding.md R72 and 10_state.md R31. -/
def encode : Instr → Encoded
  | .rgb r g b => .token [0xFE#8, r, g, b]
  | .rgba r g b a => .token [0xFF#8, r, g, b, a]
  | .index i => .token [0b00#2 ++ i]
  | .diff dr dg db => .token [0b01#2 ++ dr ++ dg ++ db]
  | .luma dg drg dbg => .token [0b10#2 ++ dg, drg ++ dbg]
  | .run l => .token [0b11#2 ++ l]
  | .parseHeader => .ctrlWrite 1#32
  | .decode => .ctrlWrite 2#32
  | .decodeWithDescriptor => .ctrlWrite 3#32

/-- A token's bytes in the stream (a command has none). -/
def Instr.bytes (i : Instr) : List Byte :=
  match encode i with
  | .token bs => bs
  | .ctrlWrite _ => []

/-- Whether an instruction is a token of the opcode stream (else it is a command). -/
def Instr.isToken : Instr → Bool
  | .rgb _ _ _ | .rgba _ _ _ _ | .index _ | .diff _ _ _ | .luma _ _ _ | .run _ => true
  | .parseHeader | .decode | .decodeWithDescriptor => false

/-- A token's length in the stream (30_encoding.md R75); a command's is the 4 bytes of its CTRL write. -/
def Instr.length : Instr → Nat
  | .rgb _ _ _ => 4
  | .rgba _ _ _ _ => 5
  | .index _ => 1
  | .diff _ _ _ => 1
  | .luma _ _ _ => 2
  | .run _ => 1
  | .parseHeader => 4
  | .decode => 4
  | .decodeWithDescriptor => 4

/-- Reading back an instruction's words: a token's bytes exactly, or a CTRL word. -/
def decodeEncoded : Encoded → Option Instr
  | .token bs =>
    match decodeToken bs with
    | .ok (i, []) => some i
    | _ => none
  | .ctrlWrite w => (decodeCtrl w).toOption

/-- The `n` bytes of `w`, its least significant byte first. -/
def littleBytes : Nat → Nat → List Byte
  | 0, _ => []
  | n + 1, w => BitVec.ofNat 8 w :: littleBytes n (w / 256)

/-- Whether a word of the opcode table is a CTRL write (log entry 10): a 32-bit word whose first byte is not that of
`OP_RGB`, or the one byte that a command's row gives bits to, `CMD` alone and not 0. -/
def isCtrlTableWord (nbits w : Nat) : Bool :=
  nbits == 32 && w % 256 != 0xFE || nbits == 8 && (w == 1 || w == 2 || w == 3)

/-- The instruction of a word of spec/opcode_table.json, bit 0 the least significant bit of the first byte. -/
def decodeTableWord (nbits w : Nat) : Option Instr :=
  if isCtrlTableWord nbits w then (decodeCtrl (BitVec.ofNat 32 w)).toOption
  else
    match decodeToken (littleBytes 5 (w % 2 ^ nbits)) with
    | .ok (i, _) => some i
    | .error _ => none

end Sys2Proof
end

