-- ==== Sys2Proof/Config.lean ====
section
/-! DEFINITION. What an implementation fixes: the parameters of 00_scope.md R6 and 20_memory.md R51 as plain data, which
the state carries and no step changes, and the free values of 10_state.md R41 and 20_memory.md R60. -/

namespace Sys2Proof

/-- The parameter `ALPHA_RGB` (00_scope.md R6, 10_state.md R22). -/
inductive AlphaRgb where
  | tracked
  | forced255
  deriving DecidableEq, Repr

/-- The parameters the model takes as arguments. A statement about every state is a statement about every value of them.
DESIGN CHOICE (log entry 2): they are carried in the state, as data.
`LEN_W` has the one legal value 32 and stands in the types. -/
structure Params where
  /-- `MAGIC` (R6, D8). -/
  magic : Word32
  /-- `PAD_LEN` (R6, D10); the legal values are the integers of at least 4 (`Params.legal`). -/
  padLen : Nat
  /-- `ALPHA_RGB` (R6, D11). -/
  alphaRgb : AlphaRgb
  /-- `HASH` (R6, R129, D9), as the pixels on which it differs from the default formula.
  Every total function from a pixel to 6 bits is such a list (`Laws.hash_represents_every_function`). -/
  hashOverrides : List (Pixel × BitVec 6)
  /-- `IN_BASE` (20_memory.md R51).
  The spec states no width of a system address; the three bases are natural numbers, so that no range wraps (DESIGN
  CHOICE, log entry 18). -/
  inBase : Nat
  /-- `OUT_BASE` (20_memory.md R51; its width: log entry 18). -/
  outBase : Nat
  /-- `CSR_BASE` (20_memory.md R51; its width: log entry 18). -/
  csrBase : Nat
  deriving DecidableEq, Repr

/-- The legal parameters: `PAD_LEN` is at least 4 (00_scope.md R6). -/
abbrev Params.legal (p : Params) : Prop := 4 ≤ p.padLen

/-- The defaults of 00_scope.md R6 (PRESUMED by the spec: general knowledge), and the placement of log entry 4
(DESIGN CHOICE: IN, OUT and the register block 2^32 bytes apart, so that no two lengths make them overlap). -/
def Params.default : Params where
  magic := 0x716F6966
  padLen := 8
  alphaRgb := .tracked
  hashOverrides := []
  inBase := 0
  outBase := 0x100000000
  csrBase := 0x200000000

/-- FREE VALUE (log entry 7): what the n-th draw of a 32-bit register read while busy gives (10_state.md R41). -/
opaque Config.freeWord : Nat → Word32

/-- FREE VALUE (log entry 7): what the n-th draw of an OUT byte gives, read before the host has read `BUSY = 0`
(20_memory.md R60 item 3, 70_reset_and_hazards.md R206). -/
opaque Config.freeByte : Nat → Byte

end Sys2Proof
end

