-- ==== Sys2Proof/Machine/State.lean ====
section
/-! DEFINITION. The state of the decoder and its reset value, the reasons a step can stop, and the host's moves. -/

namespace Sys2Proof.Machine

/-- The core's control state (10_state.md R28). -/
inductive Phase where
  /-- No command is running. -/
  | idle
  /-- A header parse is due. -/
  | hdr
  /-- The next core step fetches a token. -/
  | loop
  /-- The next core step writes a run repetition. -/
  | run
  deriving DecidableEq, Repr

/-- The command being executed, or the last one (10_state.md R28). -/
inductive Command where
  | parseHeader
  | decode
  | decodeWithDescriptor
  deriving DecidableEq, Repr

/-- The latch `ch`, in {3, 4} (10_state.md R26). -/
inductive Channels where
  | three
  | four
  deriving DecidableEq, Repr

/-- The width of a host access to the register block. -/
inductive AccessWidth where
  | byte
  | half
  | word
  | double
  deriving DecidableEq, Repr

/-- A move of the host (20_memory.md R66, 70_reset_and_hazards.md R200, R202). -/
inductive HostMove where
  /-- The host makes no move: it is the core's turn. -/
  | coreStep
  /-- The reset input is asserted. -/
  | reset
  /-- A read of the register block at a system address, which has no width (DESIGN CHOICE, log entry 18). -/
  | csrRead (addr : Nat) (width : AccessWidth)
  /-- A write of the register block at a system address (its width: log entry 18). -/
  | csrWrite (addr : Nat) (width : AccessWidth) (value : Word32)
  /-- A write of one byte of IN. -/
  | writeIn (offset : Word32) (value : Byte)
  /-- A write of one byte of OUT. -/
  | writeOut (offset : Word32) (value : Byte)
  /-- A read of one byte of OUT. -/
  | readOut (offset : Word32)
  deriving DecidableEq, Repr

/-- The bytes of a space, as (offset, byte) pairs in the canonical form `Memory.wf` of Machine/Ops.lean. -/
abbrev Memory := List Host.Cell

/-- Why the machine stops with a fault. -/
inductive Fault where
  /-- Raised by a fetch or a header parse that would read IN at an offset of at least IN_LEN, where no byte exists
  (20_memory.md R50, R55).
  Safe; the length checks before each read (R102, R125) keep every step from it. -/
  | readPastInput
  /-- Raised by a pixel write that would write OUT at an offset of at least OUT_LEN, where no byte exists
  (20_memory.md R50, R55).
  Safe; no step from a state with `MachineInv` raises it. -/
  | writePastOutput
  /-- Raised by the decode loop when its bytes decode to no token, the unreachable dispatch case
  (93_implementation_defined.md: "A model that somehow reaches it must `fault`, never continue"; 60_exceptions.md R184).
  Safe; no step raises it. -/
  | unmatchedDispatch
  deriving DecidableEq, Repr

/-- Why the model gives a step no meaning. -/
inductive Refusal where
  /-- Raised by `exec` for an instruction that has no meaning yet (none is left).
  Safe. -/
  | notModelled (mnemonic : String)
  /-- Raised by a command start whose IN and OUT ranges overlap (20_memory.md R51: "The model refuses a launch in which
  they overlap").
  Safe. -/
  | overlappingBuffers
  /-- Raised by a register access that is not 32 bits wide at a multiple of 4 (10_state.md R30: "The model refuses any
  other access").
  Safe. -/
  | csrAccess
  /-- Raised by a register access at a system address below `CSR_BASE`, which is no offset of the block (log entry 9).
  Safe. -/
  | csrAddress
  /-- Raised by a host write of IN or OUT while `BUSY = 1` (20_memory.md R60: "The model gives the host no such move").
  Safe in the model; unsafe for a host that breaks the duty. -/
  | hostWriteWhileBusy
  deriving DecidableEq, Repr

/-- The whole machine. The register named by each field is in INVENTORY.md's State section. -/
structure State where
  /-- The running pixel `px` (10_state.md R20). -/
  px : Pixel
  /-- The colour cache (10_state.md R23). -/
  cache : Vector Pixel 64
  /-- `in_cursor`, alias `pc` (10_state.md R24). -/
  pc : Word32
  /-- `out_cursor` (10_state.md R25). -/
  outCursor : Word32
  /-- `ch` (10_state.md R26). -/
  ch : Channels
  /-- `decoded_size`, an exact integer (10_state.md R26). -/
  decodedSize : Nat
  /-- `run_left` (10_state.md R27). -/
  runLeft : BitVec 6
  /-- `phase` (10_state.md R28); `STATUS.BUSY` is its view `State.busy`. -/
  phase : Phase
  /-- `cmd` (10_state.md R28). -/
  cmd : Command
  /-- `STATUS.DONE` (10_state.md R32). -/
  done : Bool
  /-- `STATUS.ERR` (10_state.md R32). -/
  err : Bool
  /-- `ERROR.CODE` (10_state.md R33). -/
  code : BitVec 3
  /-- `IN_LEN` (10_state.md R34). -/
  inLen : Word32
  /-- `OUT_LEN` (10_state.md R35). -/
  outLen : Word32
  /-- `START` (10_state.md R36). -/
  start : Word32
  /-- `WIDTH` (10_state.md R37). -/
  width : Word32
  /-- `HEIGHT` (10_state.md R37). -/
  height : Word32
  /-- `MODE`: bit 0 `ALPHA`, bit 1 `CS` (10_state.md R37). -/
  mode : BitVec 2
  /-- The space IN (20_memory.md R50). -/
  inMem : Memory
  /-- The space OUT (20_memory.md R50). -/
  outMem : Memory
  /-- The parameters (00_scope.md R6, 20_memory.md R51), which no step changes. -/
  params : Params
  /-- Whether the host has read `STATUS` with `BUSY = 0` since the last command start or reset: the acquire that makes
  what the command wrote in OUT the host's to read (20_memory.md R60 item 2, R61; 70_reset_and_hazards.md R206). -/
  acquired : Bool
  /-- MODEL'S OWN (log entry 5): the host's moves still to come, the next one first. -/
  moves : List HostMove
  /-- MODEL'S OWN (log entry 6): what the host's last read gave. -/
  hostData : Word32
  /-- MODEL'S OWN (log entry 7): how many free values have been drawn. -/
  draws : Nat
  deriving DecidableEq, Repr

/-- The three outcomes of a step of this machine. -/
abbrev Out := Host.Outcome State Fault Refusal

/-- The machine right after reset (70_reset_and_hazards.md R200, 10_state.md R45).
DESIGN CHOICE (log entries 1 to 7, 17): `cmd`, the empty spaces, the parameters' values, `acquired` and the model's own
fields. -/
def State.reset : State where
  px := Pixel.opaqueBlack
  cache := Vector.replicate 64 Pixel.transparentBlack
  pc := 0
  outCursor := 0
  ch := .three
  decodedSize := 0
  runLeft := 0
  phase := .idle
  cmd := .parseHeader
  done := false
  err := false
  code := 0
  inLen := 0
  outLen := 0
  start := 14
  width := 0
  height := 0
  mode := 0
  inMem := []
  outMem := []
  params := Params.default
  acquired := false
  moves := []
  hostData := 0
  draws := 0

end Sys2Proof.Machine
end

