-- ==== Sys2Proof/Machine/Flags.lean ====
section
/-! DEFINITION. The status bits and the error code. The core has no arithmetic flags (10_state.md R29). -/

namespace Sys2Proof.Machine

/-- The five error kinds (60_exceptions.md R180). -/
inductive ErrorKind where
  | dataTooSmall
  | invalidMagic
  | invalidChannelsValue
  | invalidColorSpaceValue
  | outputIsTooSmall
  deriving DecidableEq, Repr

/-- The code of an error kind (60_exceptions.md R180, 10_state.md R33). -/
def ErrorKind.code : ErrorKind → BitVec 3
  | .dataTooSmall => 1
  | .invalidMagic => 2
  | .invalidChannelsValue => 3
  | .invalidColorSpaceValue => 4
  | .outputIsTooSmall => 5

/-- `STATUS.BUSY`: 1 exactly when `phase` is not IDLE (10_state.md R28). -/
def State.busy (s : State) : Bool := s.phase != .idle

/-- The word `STATUS` reads: BUSY, DONE, ERR in bits 0 to 2, the others 0 (10_state.md R32). -/
def State.statusWord (s : State) : Word32 :=
  0#29 ++ BitVec.ofBool s.err ++ BitVec.ofBool s.done ++ BitVec.ofBool s.busy

/-- The word `ERROR` reads: CODE in bits 2..0, the others 0 (10_state.md R33). -/
def State.errorWord (s : State) : Word32 := s.code.setWidth 32

/-- The command, the status bits and the code at a command start: BUSY is set through `phase` (40_commands.md R100).
The host has OUT back only after it has read `BUSY = 0` again (70_reset_and_hazards.md R206). -/
def State.beginCommand (c : Command) (s : State) : State :=
  { s with cmd := c, done := false, err := false, code := 0, acquired := false }

end Sys2Proof.Machine
end

