-- ==== Sys2Proof/Machine/Hash.lean ====
section
/-! DEFINITION. The hash of a pixel into the colour cache (41_decode_loop.md R129). -/

namespace Sys2Proof

/-- The default `HASH`, `(3*r + 5*g + 7*b + 11*a) mod 64` (R129; PRESUMED by the spec: general knowledge). -/
def defaultHash (q : Pixel) : BitVec 6 :=
  BitVec.ofNat 6 (3 * q.r.toNat + 5 * q.g.toNat + 7 * q.b.toNat + 11 * q.a.toNat)

/-- The first override for a pixel, or the value given. -/
def hashLookup (q : Pixel) (d : BitVec 6) : List (Pixel × BitVec 6) → BitVec 6
  | [] => d
  | (p, h) :: rest => if p = q then h else hashLookup q d rest

/-- `HASH` under the parameters. -/
def Params.hash (p : Params) (q : Pixel) : BitVec 6 := hashLookup q (defaultHash q) p.hashOverrides

end Sys2Proof
end

