-- ==== Sys2Proof/Machine/Operands.lean ====
section
/-! DEFINITION. The operand forms: the values the tokens' fields stand for (30_encoding.md R74), the addition on a
channel (00_scope.md R9), the channel count, the packing of a pixel, and the big-endian header fields. -/

namespace Sys2Proof.Machine

/-- The number of channels (10_state.md R26). -/
def Channels.count : Channels → Nat
  | .three => 3
  | .four => 4

/-- The channel count of a `MODE` value: 4 exactly when `ALPHA` is 1 (41_decode_loop.md R120). -/
def channelsOfMode (mode : BitVec 2) : Channels := if mode.getLsbD 0 then .four else .three

/-- `a +8 d`: addition of an integer modulo 256 (00_scope.md R9, 44_delta_tokens.md R160). -/
def addWrap (c : Byte) (d : Int) : Byte := BitVec.ofInt 8 (c.toNat + d)

/-- A small delta: the field minus 2 (R74). -/
def diffDelta (f : BitVec 2) : Int := f.toNat - 2

/-- The luma token's green delta `vg`: the field minus 32 (R74). -/
def lumaGreen (dg : BitVec 6) : Int := dg.toNat - 32

/-- The luma token's red or blue delta, `vr` or `vb`: the field minus 8, plus `vg` (R74). -/
def lumaCross (dg : BitVec 6) (f : BitVec 4) : Int := f.toNat - 8 + lumaGreen dg

/-- A run's number of repetitions, `L + 1` (R74). -/
def runCount (l : BitVec 6) : BitVec 6 := l + 1

/-- How many pixels an instruction of the stream gives. -/
def pixelCount : Instr → Nat
  | .rgb _ _ _ | .rgba _ _ _ _ | .index _ | .diff _ _ _ | .luma _ _ _ => 1
  | .run l => l.toNat + 1
  | .parseHeader | .decode | .decodeWithDescriptor => 0

/-- A literal RGB token keeps the pixel's alpha (42_literal_tokens.md R140). -/
def setRgb (q : Pixel) (r g b : Byte) : Pixel := ⟨r, g, b, q.a⟩

/-- The delta applicator: three independent lanes, alpha kept (44_delta_tokens.md R160). -/
def addDeltas (q : Pixel) (dr dg db : Int) : Pixel :=
  ⟨addWrap q.r dr, addWrap q.g dg, addWrap q.b db, q.a⟩

/-- The bytes of a pixel in the output: r, g, b and, with four channels, a (20_memory.md R54). -/
def outputBytes (ch : Channels) (q : Pixel) : List Byte :=
  match ch with
  | .three => [q.r, q.g, q.b]
  | .four => [q.r, q.g, q.b, q.a]

/-- A pixel as `PIXEL` and `CACHE[i]` show it: r in the low byte (10_state.md R38). -/
def packPixel (q : Pixel) : Word32 := q.a ++ q.b ++ q.g ++ q.r

/-- A big-endian 32-bit header field: the first byte is the most significant (20_memory.md R53). -/
def bigEndian (b0 b1 b2 b3 : Byte) : Word32 := b0 ++ b1 ++ b2 ++ b3

/-- The `MODE` value of a header's channel count and colour-space tag, `{cs[0], chan == 4}` (30_encoding.md R71). -/
def modeOfHeader (chan cs : Byte) : BitVec 2 := cs.extractLsb' 0 1 ++ BitVec.ofBool (chan == 4#8)

end Sys2Proof.Machine
end

