-- ==== Sys2Proof/Machine/Ops.lean ====
section
/-! DEFINITION. The named operations over memory and registers: the two byte spaces, the error entry and the completion,
the cache write-back, the pixel output, and what the non-run tokens share. -/

namespace Sys2Proof.Machine

/-- What a byte that is not listed reads as.
DESIGN CHOICE (log entry 1): the spec gives the spaces no contents before they are written. -/
def Memory.blank : Byte := 0

/-- The canonical form: offsets strictly rising, each a 32-bit offset, and no entry that reads as an unlisted one does. -/
abbrev Memory.wf (m : Memory) : Prop :=
  m.Pairwise (fun x y => x.1 < y.1) ∧ ∀ c ∈ m, c.2 ≠ Memory.blank ∧ c.1 < 2 ^ 32

/-- One byte of a space. -/
def Memory.read : Memory → Nat → Byte
  | [], _ => Memory.blank
  | (k, v) :: rest, a => if k = a then v else Memory.read rest a

/-- Writing one byte of a space, in canonical form. -/
def Memory.write : Memory → Nat → Byte → Memory
  | [], a, v => if v = Memory.blank then [] else [(a, v)]
  | (k, u) :: rest, a, v =>
    if a < k then
      if v = Memory.blank then (k, u) :: rest else (a, v) :: (k, u) :: rest
    else if a = k then
      if v = Memory.blank then rest else (a, v) :: rest
    else (k, u) :: Memory.write rest a v

/-- Writing bytes at rising offsets. -/
def Memory.writeBytes : Memory → Nat → List Byte → Memory
  | m, _, [] => m
  | m, a, v :: vs => Memory.writeBytes (Memory.write m a v) (a + 1) vs

/-- `MemRead(addr, n)` as the bytes in order (00_scope.md R10); none where a byte lies at or beyond `IN_LEN`, which is
outside the space IN (20_memory.md R50). -/
def State.memRead (s : State) (a n : Nat) : Option (List Byte) :=
  if a + n ≤ s.inLen.toNat then some ((List.range n).map fun k => Memory.read s.inMem (a + k)) else none

/-- `MemWrite(addr, n, v)` (00_scope.md R10); none where a byte lies at or beyond `OUT_LEN`, which is outside the space
OUT (20_memory.md R50). -/
def State.memWrite (s : State) (a : Nat) (vs : List Byte) : Option State :=
  if a + vs.length ≤ s.outLen.toNat then some { s with outMem := Memory.writeBytes s.outMem a vs } else none

/-- `raise E`: the error entry, the one operation by which a command ends with an error (60_exceptions.md R181).
No state is saved elsewhere, no mode changes and no handler address is used. -/
def State.raise (e : ErrorKind) (s : State) : State := { s with code := e.code, err := true, phase := .idle }

/-- `finish()`: successful completion (60_exceptions.md R186). -/
def State.finish (s : State) : State := { s with done := true, phase := .idle }

/-- Whether two ranges of addresses have one in common (20_memory.md R51).
An address has no width, so that neither range wraps (DESIGN CHOICE, log entry 18). -/
def rangesOverlap (a n b m : Nat) : Bool := decide (max a b < min (a + n) (b + m))

/-- Whether the IN range and the OUT range overlap (20_memory.md R51). -/
def State.buffersOverlap (s : State) : Bool :=
  rangesOverlap s.params.inBase s.inLen.toNat s.params.outBase s.outLen.toNat

/-- The reset input (70_reset_and_hazards.md R200): every register and latch takes its reset value.
The spaces keep their bytes ("the OUT bytes it wrote stay written"), and the parameters and the model's own fields are
none of the block's registers. -/
def State.assertReset (s : State) : State :=
  { State.reset with
    inMem := s.inMem, outMem := s.outMem, params := s.params, moves := s.moves, hostData := s.hostData, draws := s.draws }

/-- `ALPHA_RGB`: with `FORCED_255` and three channels, alpha becomes 255 after a token's effect and before its write-back
(41_decode_loop.md R127, 10_state.md R22). -/
def State.settleAlpha (s : State) (q : Pixel) : Pixel :=
  if s.params.alphaRgb = .forced255 ∧ s.ch = .three then { q with a := 255 } else q

/-- Reading the colour cache (43_cache_token.md R150). -/
def State.cacheAt (s : State) (i : BitVec 6) : Pixel := s.cache[i.toNat]

/-- The cache write-back: `cache[HASH(px)] <- px` (41_decode_loop.md R127). -/
def State.writeBack (s : State) : State :=
  { s with cache := s.cache.set (s.params.hash s.px).toNat s.px }

/-- Writing the running pixel to OUT at `out_cursor`, which advances by the channel count (41_decode_loop.md R128). -/
def State.emitPixel (s : State) : Option State :=
  (s.memWrite s.outCursor.toNat (outputBytes s.ch s.px)).map fun t =>
    { t with outCursor := t.outCursor + BitVec.ofNat 32 t.ch.count }

/-- The end of every non-run token that gives the pixel `q` and is `len` bytes long: the running pixel is set, then the
write-back, the output, and `pc` past the token (41_decode_loop.md R127, R128). -/
def completeToken (len : Nat) (q : Pixel) (s : State) : Out :=
  match ({ s with px := s.settleAlpha q } : State).writeBack.emitPixel with
  | some t => .next { t with pc := t.pc + BitVec.ofNat 32 len, phase := .loop }
  | none => .fault .writePastOutput

end Sys2Proof.Machine
end

