-- ==== Sys2Proof/Machine/CacheLookup.lean ====
section
/-! DEFINITION. The cache lookup token (43_cache_token.md). -/

namespace Sys2Proof.Machine

/-- `OP_INDEX` (R150): the entry is read, all four channels, before the write-back. -/
def execIndex (i : BitVec 6) (s : State) : Out := completeToken 1 (s.cacheAt i) s

end Sys2Proof.Machine
end

