-- ==== Sys2Proof/Machine/Header.lean ====
section
/-! DEFINITION. The header parser (40_commands.md R102) and the decode entry (41_decode_loop.md R120 to R122). -/

namespace Sys2Proof.Machine

/-- The initialisation of a decode that produces pixels (R122). -/
def State.initDecode (s : State) : State :=
  { s with
    px := Pixel.opaqueBlack, cache := Vector.replicate 64 Pixel.transparentBlack, phase := .loop }

/-- The latches and cursors a decode starts with (R120). -/
def State.loadDecode (start : Word32) (s : State) : State :=
  { s with
    ch := channelsOfMode s.mode
    decodedSize := s.width.toNat * s.height.toNat * (channelsOfMode s.mode).count
    pc := start, outCursor := 0, runLeft := 0 }

/-- The early exits, in this order (R121), and the initialisation. -/
def State.enterLoop (s : State) : State :=
  if s.width = 0 ∨ s.height = 0 then s.finish
  else if s.outLen.toNat < s.decodedSize then s.raise .outputIsTooSmall
  else s.initDecode

/-- `decode_entry(start)` (R120). -/
def State.decodeEntry (start : Word32) (s : State) : State := (s.loadDecode start).enterLoop

/-- The length of the header, and the offset of the opcode stream after it (30_encoding.md R70). -/
def headerLength : Nat := 14

/-- The descriptor registers are written (R103). -/
def State.setDescriptor (w h : Word32) (mode : BitVec 2) (s : State) : State :=
  { s with width := w, height := h, mode := mode }

/-- What follows a header whose checks pass (R102): the descriptor is written, and the command ends or the decode is
entered. -/
def State.acceptHeader (w h : Word32) (mode : BitVec 2) (s : State) : State :=
  match s.cmd with
  | .parseHeader => (s.setDescriptor w h mode).finish
  | .decode | .decodeWithDescriptor => (s.setDescriptor w h mode).decodeEntry (BitVec.ofNat 32 headerLength)

/-- The checks of the header's fields, in their order (R102, 60_exceptions.md R183). -/
def State.checkHeader (magic w h : Word32) (chan cs : Byte) (s : State) : State :=
  if magic ≠ s.params.magic then s.raise .invalidMagic
  else if cs ≠ 0 ∧ cs ≠ 1 then s.raise .invalidColorSpaceValue
  else if chan ≠ 3 ∧ chan ≠ 4 then s.raise .invalidChannelsValue
  else s.acceptHeader w h (modeOfHeader chan cs)

/-- The header parse step (R102). -/
def headerParse (s : State) : Out :=
  if s.inLen.toNat < headerLength then .next (s.raise .dataTooSmall)
  else
    match s.memRead 0 headerLength with
    | some [m0, m1, m2, m3, w0, w1, w2, w3, h0, h1, h2, h3, chan, cs] =>
      .next (s.checkHeader (bigEndian m0 m1 m2 m3) (bigEndian w0 w1 w2 w3) (bigEndian h0 h1 h2 h3) chan cs)
    | _ => .fault .readPastInput

end Sys2Proof.Machine
end

