-- ==== Sys2Proof/Machine/Commands.lean ====
section
/-! DEFINITION. The start of the three host commands (40_commands.md R100, R104 to R106). -/

namespace Sys2Proof.Machine

/-- What every command start shares (R100): a write while busy is ignored, a launch whose buffers overlap is refused
(20_memory.md R51), and otherwise the status is cleared and `cmd` set in one step with what `body` does. -/
def launch (c : Command) (body : State → State) (s : State) : Out :=
  if s.busy then .next s
  else if s.buffersOverlap then .refused .overlappingBuffers
  else .next (body (s.beginCommand c))

/-- `PARSE_HEADER` (R104): the header parse is due. -/
def execParseHeader (s : State) : Out := launch .parseHeader (fun t => { t with phase := .hdr }) s

/-- `DECODE` (R105): the header parse is due. -/
def execDecode (s : State) : Out := launch .decode (fun t => { t with phase := .hdr }) s

/-- `DECODE_WITH_DESCRIPTOR` (R106): the decode is entered in the same step, at `START`. -/
def execDecodeWithDescriptor (s : State) : Out :=
  launch .decodeWithDescriptor (fun t => t.decodeEntry t.start) s

end Sys2Proof.Machine
end

