-- ==== Sys2Proof/Machine/Delta.lean ====
section
/-! DEFINITION. The delta tokens (44_delta_tokens.md). -/

namespace Sys2Proof.Machine

/-- `OP_DIFF` (R161). -/
def execDiff (dr dg db : BitVec 2) (s : State) : Out :=
  completeToken 1 (addDeltas s.px (diffDelta dr) (diffDelta dg) (diffDelta db)) s

/-- `OP_LUMA` (R163): the red and blue deltas are relative to the green one. -/
def execLuma (dg : BitVec 6) (drg dbg : BitVec 4) (s : State) : Out :=
  completeToken 2 (addDeltas s.px (lumaCross dg drg) (lumaGreen dg) (lumaCross dg dbg)) s

end Sys2Proof.Machine
end

