-- ==== Sys2Proof/Machine/Literal.lean ====
section
/-! DEFINITION. The literal tokens (42_literal_tokens.md). -/

namespace Sys2Proof.Machine

/-- `OP_RGB` (R140, R141): the operand bytes become r, g, b; alpha is kept. -/
def execRgb (r g b : Byte) (s : State) : Out := completeToken 4 (setRgb s.px r g b) s

/-- `OP_RGBA` (R142): the operand bytes become r, g, b, a. -/
def execRgba (r g b a : Byte) (s : State) : Out := completeToken 5 ⟨r, g, b, a⟩ s

end Sys2Proof.Machine
end

