-- ==== Sys2Proof/Machine/Run.lean ====
section
/-! DEFINITION. The run token and its repetitions (45_run_token.md). -/

namespace Sys2Proof.Machine

/-- `OP_RUN` (R171): the repetitions to come are counted, and each is a core step of its own. -/
def execRun (l : BitVec 6) (s : State) : Out :=
  .next { s with runLeft := runCount l, pc := s.pc + 1, phase := .run }

/-- One repetition (R172): the pixel is written once more, or the run has passed the expected pixel count.
The comparison is of integers. -/
def runRepetition (s : State) : Out :=
  if s.outCursor.toNat + s.ch.count > s.decodedSize then .next (s.raise .outputIsTooSmall)
  else
    match s.emitPixel with
    | some t =>
      .next { t with runLeft := t.runLeft - 1, phase := if t.runLeft - 1 = 0 then .loop else .run }
    | none => .fault .writePastOutput

/-- How many of the repetitions left fit below `decoded_size` (R174). -/
def State.fittingRepetitions (s : State) : Nat :=
  min s.runLeft.toNat ((s.decodedSize - s.outCursor.toNat) / s.ch.count)

/-- The repetitions of a run in one transition, the fused form that R174 allows a model.
No step uses it: the model takes one step per repetition, and a statement compares the two. -/
def fusedRun (s : State) : State :=
  let n := s.fittingRepetitions
  let t := { s with
    outMem := Memory.writeBytes s.outMem s.outCursor.toNat (List.replicate n (outputBytes s.ch s.px)).flatten
    outCursor := s.outCursor + BitVec.ofNat 32 (n * s.ch.count)
    runLeft := s.runLeft - BitVec.ofNat 6 n }
  if n < s.runLeft.toNat then t.raise .outputIsTooSmall else { t with phase := .loop }

end Sys2Proof.Machine
end

