-- ==== Sys2Proof/Machine/Dispatch.lean ====
section
/-! DEFINITION. One arm per instruction. -/

namespace Sys2Proof.Machine

def exec (i : Instr) (s : State) : Host.Outcome State Fault Refusal :=
  match i with
  | .rgb r g b => Sys2Proof.Machine.execRgb r g b s
  | .rgba r g b a => Sys2Proof.Machine.execRgba r g b a s
  | .index k => Sys2Proof.Machine.execIndex k s
  | .diff dr dg db => Sys2Proof.Machine.execDiff dr dg db s
  | .luma dg drg dbg => Sys2Proof.Machine.execLuma dg drg dbg s
  | .run l => Sys2Proof.Machine.execRun l s
  | .parseHeader => Sys2Proof.Machine.execParseHeader s
  | .decode => Sys2Proof.Machine.execDecode s
  | .decodeWithDescriptor => Sys2Proof.Machine.execDecodeWithDescriptor s

end Sys2Proof.Machine
end

