-- ==== Sys2Proof/Machine/Csr.lean ====
section
/-! DEFINITION. The interface registers as the host sees them (10_state.md R30 to R45). -/

namespace Sys2Proof.Machine

/-- What stands at an offset of the block (R45). -/
inductive CsrReg where
  | ctrl
  | status
  | error
  | inLen
  | outLen
  | start
  | width
  | height
  | mode
  | inCursor
  | outCursor
  | pixel
  | runLeft
  | cache (i : BitVec 6)
  /-- An offset that is not in the table. -/
  | unmapped
  deriving DecidableEq, Repr

/-- The register map (R45). -/
def csrAt (offset : Nat) : CsrReg :=
  match offset with
  | 0x00 => .ctrl
  | 0x04 => .status
  | 0x08 => .error
  | 0x0C => .inLen
  | 0x10 => .outLen
  | 0x14 => .start
  | 0x18 => .width
  | 0x1C => .height
  | 0x20 => .mode
  | 0x24 => .inCursor
  | 0x28 => .outCursor
  | 0x2C => .pixel
  | 0x30 => .runLeft
  | _ =>
    if 0x100 ≤ offset ∧ offset ≤ 0x1FC ∧ offset % 4 = 0 then .cache (BitVec.ofNat 6 ((offset - 0x100) / 4)) else .unmapped

/-- Whether a register shows the progress of a running command, so that it reads as a draw while busy (R41). -/
def CsrReg.isProgress : CsrReg → Bool
  | .inCursor | .outCursor | .pixel | .runLeft | .cache _ => true
  | .ctrl | .status | .error | .inLen | .outLen | .start | .width | .height | .mode | .unmapped => false

/-- What a register holds (R31 to R40). -/
def State.csrValue (s : State) : CsrReg → Word32
  | .ctrl => 0
  | .status => s.statusWord
  | .error => s.errorWord
  | .inLen => s.inLen
  | .outLen => s.outLen
  | .start => s.start
  | .width => s.width
  | .height => s.height
  | .mode => s.mode.setWidth 32
  | .inCursor => s.pc
  | .outCursor => s.outCursor
  | .pixel => packPixel s.px
  | .runLeft => s.runLeft.setWidth 32
  | .cache i => packPixel (s.cacheAt i)
  | .unmapped => 0

/-- What a draw for a progress register gives: any word, but that bits 31..6 of `RUN_LEFT` read as 0 (R40, R41). -/
def CsrReg.drawn (r : CsrReg) (w : Word32) : Word32 :=
  match r with
  | .runLeft => (w.extractLsb' 0 6).setWidth 32
  | _ => w

/-- A read of `STATUS` that shows `BUSY = 0` acquires, and no other read does (20_memory.md R61). -/
def State.acquiredBy (s : State) (r : CsrReg) : Bool := s.acquired || r == .status && !s.busy

/-- The host reads a register; the answer stands in `hostData`. -/
def readReg (r : CsrReg) (s : State) : Out :=
  if s.busy && r.isProgress then
    .next { s with hostData := r.drawn (Config.freeWord s.draws), draws := s.draws + 1 }
  else .next { s with hostData := s.csrValue r, acquired := s.acquiredBy r }

/-- A write of a register other than `CTRL`: only the read-write ones take it (R30, R34 to R37). -/
def State.setReg (s : State) (r : CsrReg) (v : Word32) : State :=
  match r with
  | .inLen => { s with inLen := v }
  | .outLen => { s with outLen := v }
  | .start => { s with start := v }
  | .width => { s with width := v }
  | .height => { s with height := v }
  | .mode => { s with mode := v.extractLsb' 0 2 }
  | .ctrl | .status | .error | .inCursor | .outCursor | .pixel | .runLeft | .cache _ | .unmapped => s

/-- A write of `CTRL` starts the command its `CMD` names; `CMD = 0` is ignored (R31, 40_commands.md R100). -/
def writeCtrl (v : Word32) (s : State) : Out :=
  match decodeCtrl v with
  | .ok i => exec i s
  | .error _ => .next s

/-- The host writes a register: while busy the write has no effect (R44). -/
def writeReg (r : CsrReg) (v : Word32) (s : State) : Out :=
  if s.busy then .next s
  else
    match r with
    | .ctrl => writeCtrl v s
    | r => .next (s.setReg r v)

/-- The access rules (R30): a 32-bit access at a multiple of 4 from `CSR_BASE`; any other is refused. -/
def withCsr (addr : Nat) (width : AccessWidth) (s : State) (access : CsrReg → State → Out) : Out :=
  if addr < s.params.csrBase then .refused .csrAddress
  else if width = .word ∧ (addr - s.params.csrBase) % 4 = 0 then access (csrAt (addr - s.params.csrBase)) s
  else .refused .csrAccess

end Sys2Proof.Machine
end

