-- ==== Sys2Proof/Machine/Loop.lean ====
section
/-! DEFINITION. The core's step (41_decode_loop.md R137): the decode loop with its end test, guard and fetch. -/

namespace Sys2Proof.Machine

/-- `IN_LEN - pc`, as an integer, so that a `pc` beyond `IN_LEN` counts as negative (R124). -/
def State.bytesLeft (s : State) : Int := (s.inLen.toNat : Int) - s.pc.toNat

/-- Running the token whose bytes are read (R125). -/
def runToken (s : State) (bytes : List Byte) : Out :=
  match decodeToken bytes with
  | .ok (i, _) => exec i s
  | .error _ => .fault .unmatchedDispatch

/-- Fetch and dispatch (R125): the first byte gives the length, the length is checked, and exactly that many bytes are
read. -/
def fetchToken (s : State) : Out :=
  match s.memRead s.pc.toNat 1 with
  | some [b0] =>
    if s.bytesLeft < tokenLength b0 then .next (s.raise .dataTooSmall)
    else
      match s.memRead s.pc.toNat (tokenLength b0) with
      | some bytes => runToken s bytes
      | none => .fault .readPastInput
  | _ => .fault .readPastInput

/-- A step with `phase = LOOP`: the end test first (R123), then the guard (R124), then the token. -/
def loopStep (s : State) : Out :=
  if s.outCursor.toNat = s.decodedSize then .next s.finish
  else if s.bytesLeft ≤ s.params.padLen then .next (s.raise .dataTooSmall)
  else fetchToken s

/-- The core's step (R137).
In IDLE the core takes no step and all state survives (60_exceptions.md R195): the answer is the same state
(DESIGN CHOICE, log entry 8). -/
def coreStep (s : State) : Out :=
  match s.phase with
  | .idle => .next s
  | .hdr => headerParse s
  | .loop => loopStep s
  | .run => runRepetition s

end Sys2Proof.Machine
end

