-- ==== Sys2Proof/Machine/HostPort.lean ====
section
/-! DEFINITION. What each move of the host does (20_memory.md R60, R66, 70_reset_and_hazards.md R200, R202). -/

namespace Sys2Proof.Machine

/-- A host write of IN: the host's while idle, and no move of the host while busy (20_memory.md R60). -/
def hostWriteIn (a : Nat) (v : Byte) (s : State) : Out :=
  if s.busy then .refused .hostWriteWhileBusy else .next { s with inMem := Memory.write s.inMem a v }

/-- A host write of OUT: the host's while idle, and no move of the host while busy (20_memory.md R60). -/
def hostWriteOut (a : Nat) (v : Byte) (s : State) : Out :=
  if s.busy then .refused .hostWriteWhileBusy else .next { s with outMem := Memory.write s.outMem a v }

/-- A host read of OUT: what stands there once the host has read `BUSY = 0` (20_memory.md R60 item 2), and any value
before that, while a command runs or after it (R60 item 3, R61; 70_reset_and_hazards.md R206). -/
def hostReadOut (a : Nat) (s : State) : Out :=
  if !s.busy && s.acquired then .next { s with hostData := (Memory.read s.outMem a).setWidth 32 }
  else .next { s with hostData := (Config.freeByte s.draws).setWidth 32, draws := s.draws + 1 }

/-- One move of the host. -/
def hostStep (m : HostMove) (s : State) : Out :=
  match m with
  | .coreStep => coreStep s
  | .reset => .next s.assertReset
  | .csrRead addr width => withCsr addr width s readReg
  | .csrWrite addr width v => withCsr addr width s (fun r => writeReg r v)
  | .writeIn a v => hostWriteIn a.toNat v s
  | .writeOut a v => hostWriteOut a.toNat v s
  | .readOut a => hostReadOut a.toNat s

/-- The next move: the oldest of the host's, or the core's where the host has none. -/
def nextMove (s : State) : Out :=
  match s.moves with
  | [] => coreStep s
  | m :: rest => hostStep m { s with moves := rest }

/-- Making the next token fetched be the one whose bytes are given, the rest of the longest token zero: the phase is
LOOP, the bytes stand at `pc`, the loop has not ended, and IN is long enough for the guard. -/
def placeToken (bytes : List Byte) (s : State) : State :=
  { s with
    phase := .loop, moves := []
    inMem := Memory.writeBytes s.inMem s.pc.toNat bytes
    inLen := BitVec.ofNat 32 (s.pc.toNat + bytes.length + s.params.padLen)
    decodedSize := s.outCursor.toNat + s.ch.count
    outLen := BitVec.ofNat 32 (s.outCursor.toNat + s.ch.count) }

/-- Making the next move be the host's write of a word to `CTRL`. -/
def placeCtrl (w : Word32) (s : State) : State :=
  { s with moves := [.csrWrite s.params.csrBase .word w] }

end Sys2Proof.Machine
end

