-- ==== Sys2Proof/Machine/Step.lean ====
section
/-! DEFINITION. The step, and the placing of an instruction where the step takes its next one from. -/

namespace Sys2Proof.Machine

/-- One step of the machine: one move of the host or one step of the core. -/
def step (s : State) : Host.Outcome State Fault Refusal := nextMove s

/-- `s` with the instruction of a table word as the one the next step runs: a token at `pc`, a command as the host's
next move (log entry 11). -/
def State.withFetchWord (s : State) (nbits w : Nat) : State :=
  if isCtrlTableWord nbits w then placeCtrl (BitVec.ofNat 32 w) s else placeToken (littleBytes 5 (w % 2 ^ nbits)) s

end Sys2Proof.Machine
end

