-- ==== Sys2Proof/Machine/Assembler.lean ====
section
/-! DEFINITION. The spec's assembler syntax and directives (30_encoding.md R80, R81). No step uses it. -/

namespace Sys2Proof.Machine

/-- A statement or a directive, its operands as written. -/
inductive AsmLine where
  | rgb (r g b : Int)
  | rgba (r g b a : Int)
  | index (i : Int)
  | diff (dr dg db : Int)
  | luma (dg drg dbg : Int)
  | run (n : Int)
  | header (w h c s : Int)
  | pad
  | byte (v : Int)
  deriving DecidableEq, Repr

/-- An operand with its bias added, where that fits in `n` bits: an operand outside its range does not assemble (R80). -/
def asmField (n : Nat) (bias v : Int) : Option (BitVec n) :=
  if 0 ≤ v + bias ∧ v + bias < 2 ^ n then some (BitVec.ofInt n (v + bias)) else none

/-- The token of a statement (R80); a directive is none. -/
def AsmLine.token : AsmLine → Option Instr
  | .rgb r g b => do return .rgb (← asmField 8 0 r) (← asmField 8 0 g) (← asmField 8 0 b)
  | .rgba r g b a => do return .rgba (← asmField 8 0 r) (← asmField 8 0 g) (← asmField 8 0 b) (← asmField 8 0 a)
  | .index i => do return .index (← asmField 6 0 i)
  | .diff dr dg db => do return .diff (← asmField 2 2 dr) (← asmField 2 2 dg) (← asmField 2 2 db)
  | .luma dg drg dbg => do return .luma (← asmField 6 32 dg) (← asmField 4 8 drg) (← asmField 4 8 dbg)
  | .run n => if n ≤ 62 then do return .run (← asmField 6 (-1) n) else none
  | .header _ _ _ _ | .pad | .byte _ => none

/-- A 32-bit value as 4 bytes, the most significant first. -/
def bigEndianBytes (w : Word32) : List Byte :=
  [w.extractLsb' 24 8, w.extractLsb' 16 8, w.extractLsb' 8 8, w.extractLsb' 0 8]

/-- The padding sentinel: `PAD_LEN` bytes, all 0 but the last, which is 1.
PRESUMED by the spec for `PAD_LEN` = 8 (R79); the core never reads them (log entry 14). -/
def sentinel (padLen : Nat) : List Byte := List.replicate (padLen - 1) 0 ++ [1]

/-- The bytes of a line (R80, R81). -/
def AsmLine.assemble (p : Params) : AsmLine → Option (List Byte)
  | .header w h c s => do
    let w ← asmField 32 0 w
    let h ← asmField 32 0 h
    let c ← asmField 8 0 c
    let s ← asmField 8 0 s
    return bigEndianBytes p.magic ++ bigEndianBytes w ++ bigEndianBytes h ++ [c, s]
  | .pad => some (sentinel p.padLen)
  | .byte v => do return [← asmField 8 0 v]
  | line => line.token.map Instr.bytes

/-- The bytes of a stream's lines in order. -/
def assemble (p : Params) : List AsmLine → Option (List Byte)
  | [] => some []
  | l :: ls => do return (← l.assemble p) ++ (← assemble p ls)

end Sys2Proof.Machine
end

