-- ==== Sys2Proof/Safety.lean ====
section
/-! DEFINITION. The terms the statements use: the invariant of the machine, what a token does, what two states share, and
a stream of tokens in IN. -/

namespace Sys2Proof.Machine

/-- The offset in IN at which the decode under way began (41_decode_loop.md R120). -/
def State.entry (s : State) : Word32 :=
  match s.cmd with
  | .decodeWithDescriptor => s.start
  | .parseHeader | .decode => 14

/-- Whether the decode loop is under way. -/
abbrev State.decoding (s : State) : Prop := s.phase = .loop ∨ s.phase = .run

/-- What holds while the decode loop is under way. -/
structure DecodeInv (s : State) : Prop where
  /-- R120: the command is a decoding one. -/
  command : s.cmd ≠ .parseHeader
  /-- R26, R120: the latches are those of the descriptor. -/
  channels : s.ch = channelsOfMode s.mode
  size : s.decodedSize = s.width.toNat * s.height.toNat * s.ch.count
  /-- R121: the decode passed the early exits. -/
  nonzero : s.width ≠ 0 ∧ s.height ≠ 0
  fits : s.decodedSize ≤ s.outLen.toNat
  /-- R123, R25: the pixel cursor never passes the end and is a multiple of the channel count. -/
  cursor : s.outCursor.toNat ≤ s.decodedSize
  aligned : s.ch.count ∣ s.outCursor.toNat
  /-- R24, R55: the byte cursor stands at the start of the stream or inside IN. -/
  fetch : s.pc = s.entry ∨ s.pc.toNat ≤ s.inLen.toNat
  /-- R22, R164: with `FORCED_255` and three channels the running pixel is opaque. -/
  alpha : s.params.alphaRgb = .forced255 → s.ch = .three → s.px.a = 255

/-- The invariant of the machine: it holds at reset, and every step keeps it. -/
structure MachineInv (s : State) : Prop where
  /-- R6: the parameters are legal. -/
  legal : s.params.legal
  /-- The two spaces are in canonical form. -/
  inWf : Memory.wf s.inMem
  outWf : Memory.wf s.outMem
  /-- R32: `DONE` and `ERR` are never both 1, and neither is while a command runs. -/
  notBoth : ¬(s.done = true ∧ s.err = true)
  busyClear : s.busy = true → s.done = false ∧ s.err = false
  /-- R33, R180: a code stands in `ERROR` exactly after an error, and it is one of the five. -/
  errCode : s.err = true ↔ s.code ≠ 0
  codeLegal : s.code.toNat ≤ 5
  /-- R51: no command runs over overlapping buffers. -/
  apart : s.busy = true → s.buffersOverlap = false
  /-- R27: `run_left` is at most 62; it is 0 between tokens and not 0 in a run. -/
  runBound : s.runLeft.toNat ≤ 62
  runIdle : s.phase = .loop → s.runLeft = 0
  runBusy : s.phase = .run → s.runLeft ≠ 0
  /-- R172, R182: the first repetition of a run always fits, so that a run that reached the end has fewer than 62 left. -/
  runFits : s.phase = .run → s.outCursor.toNat = s.decodedSize → s.runLeft.toNat ≤ 61
  /-- R100: a header parse is due only for the two commands that have one. -/
  header : s.phase = .hdr → s.cmd ≠ .decodeWithDescriptor
  /-- R60 item 2, R61: what a command wrote in OUT is acquired only after it has ended. -/
  acquiredIdle : s.acquired = true → s.phase = .idle
  /-- R151: every cache entry is transparent black or a pixel that hashes to its slot. -/
  cached : ∀ i : BitVec 6, s.cacheAt i = Pixel.transparentBlack ∨ s.params.hash (s.cacheAt i) = i
  decode : s.decoding → DecodeInv s

/-- A pixel's alpha after a non-run token (41_decode_loop.md R127): 255 with `FORCED_255` and three channels, else the
one the token gives. -/
def tokenAlpha (s : State) (a : Byte) : Byte := if s.params.alphaRgb = .forced255 ∧ s.ch = .three then 255 else a

/-- The registers and spaces that no token writes are the same in `s` and `t`. -/
structure SameOutsideToken (s t : State) : Prop where
  ch : t.ch = s.ch
  decodedSize : t.decodedSize = s.decodedSize
  cmd : t.cmd = s.cmd
  done : t.done = s.done
  err : t.err = s.err
  code : t.code = s.code
  inLen : t.inLen = s.inLen
  outLen : t.outLen = s.outLen
  start : t.start = s.start
  width : t.width = s.width
  height : t.height = s.height
  mode : t.mode = s.mode
  inMem : t.inMem = s.inMem
  params : t.params = s.params
  acquired : t.acquired = s.acquired
  moves : t.moves = s.moves
  hostData : t.hostData = s.hostData
  draws : t.draws = s.draws

/-- The OUT bytes of `t` are those of `s` but for the pixel `q`, which stands at the pixel cursor of `s` as r, g, b and,
with four channels, a. -/
structure PixelWritten (q : Pixel) (s t : State) : Prop where
  red : Memory.read t.outMem s.outCursor.toNat = q.r
  green : Memory.read t.outMem (s.outCursor.toNat + 1) = q.g
  blue : Memory.read t.outMem (s.outCursor.toNat + 2) = q.b
  alpha : s.ch = .four → Memory.read t.outMem (s.outCursor.toNat + 3) = q.a
  elsewhere : ∀ a, a < s.outCursor.toNat ∨ s.outCursor.toNat + s.ch.count ≤ a →
    Memory.read t.outMem a = Memory.read s.outMem a
  cursor : t.outCursor.toNat = s.outCursor.toNat + s.ch.count

/-- What a non-run token of `len` bytes that gives the pixel `q` does, and leaves unchanged. -/
structure TokenEffect (len : Nat) (q : Pixel) (s t : State) : Prop where
  px : t.px = q
  /-- R127: the pixel stands in the cache at its own hash, and every other entry is unchanged. -/
  cached : t.cacheAt (s.params.hash q) = q
  otherSlots : ∀ i, i ≠ s.params.hash q → t.cacheAt i = s.cacheAt i
  /-- R128. -/
  written : PixelWritten q s t
  pc : t.pc = s.pc + BitVec.ofNat 32 len
  phase : t.phase = .loop
  runLeft : t.runLeft = s.runLeft
  frame : SameOutsideToken s t

/-- What a command start leaves alone: the lengths, the start, the descriptor, the spaces, the parameters and the host's
side are the same in `s` and `t`. -/
structure SameInputs (s t : State) : Prop where
  inLen : t.inLen = s.inLen
  outLen : t.outLen = s.outLen
  start : t.start = s.start
  inMem : t.inMem = s.inMem
  outMem : t.outMem = s.outMem
  params : t.params = s.params
  moves : t.moves = s.moves
  hostData : t.hostData = s.hostData
  draws : t.draws = s.draws

/-- The descriptor registers are the same in `s` and `t`. -/
abbrev SameDescriptor (s t : State) : Prop := t.width = s.width ∧ t.height = s.height ∧ t.mode = s.mode

/-- The running pixel and the cache are the same in `s` and `t`. -/
abbrev SamePixels (s t : State) : Prop := t.px = s.px ∧ t.cache = s.cache

/-- The command has ended with success: `DONE`, no error (60_exceptions.md R186). -/
abbrev State.succeeded (s : State) : Prop := s.phase = .idle ∧ s.done = true ∧ s.err = false ∧ s.code = 0

/-- The command has ended with the error of a code (60_exceptions.md R181). -/
abbrev State.failed (c : BitVec 3) (s : State) : Prop := s.phase = .idle ∧ s.done = false ∧ s.err = true ∧ s.code = c

/-- The decode has been initialised: opaque black, every cache entry transparent black, the loop due
(41_decode_loop.md R122). -/
abbrev State.initialised (s : State) : Prop :=
  s.phase = .loop ∧ s.px = ⟨0, 0, 0, 255⟩ ∧ (∀ i, s.cacheAt i = ⟨0, 0, 0, 0⟩) ∧ s.done = false ∧ s.err = false ∧ s.code = 0

/-- The number in the four bytes of IN at an offset, the first byte the most significant (20_memory.md R53). -/
def inNumber (s : State) (a : Nat) : Nat :=
  (Memory.read s.inMem a).toNat * 2 ^ 24 + (Memory.read s.inMem (a + 1)).toNat * 2 ^ 16 +
    (Memory.read s.inMem (a + 2)).toNat * 2 ^ 8 + (Memory.read s.inMem (a + 3)).toNat

/-- The header's channel count and colour-space tag (30_encoding.md R70). -/
def headerChannels (s : State) : Nat := (Memory.read s.inMem 12).toNat
def headerTag (s : State) : Nat := (Memory.read s.inMem 13).toNat

/-- IN holds a header whose checks pass (40_commands.md R102). -/
abbrev State.headerGood (s : State) : Prop :=
  14 ≤ s.inLen.toNat ∧ inNumber s 0 = s.params.magic.toNat ∧ headerTag s ≤ 1 ∧
    (headerChannels s = 3 ∨ headerChannels s = 4)

/-- The descriptor registers hold what the header says (30_encoding.md R70, R71). -/
abbrev State.describes (s t : State) : Prop :=
  t.width.toNat = inNumber s 4 ∧ t.height.toNat = inNumber s 8 ∧
    t.mode.toNat = 2 * headerTag s + if headerChannels s = 4 then 1 else 0

/-- A pixel as one number, r in the low byte (10_state.md R38). -/
def pixelNumber (q : Pixel) : Nat := q.r.toNat + q.g.toNat * 2 ^ 8 + q.b.toNat * 2 ^ 16 + q.a.toNat * 2 ^ 24

/-- Two states that decode alike: they differ only in OUT bytes at or beyond the pixel cursor and in the host's side. -/
structure SameDecode (s t : State) : Prop where
  registers : t = { s with outMem := t.outMem, acquired := t.acquired, hostData := t.hostData, draws := t.draws }
  written : ∀ a, a < s.outCursor.toNat → Memory.read t.outMem a = Memory.read s.outMem a

/-- There is room in OUT for one more pixel at the pixel cursor. -/
abbrev State.roomForPixel (s : State) : Prop := s.outCursor.toNat + s.ch.count ≤ s.outLen.toNat

/-- A launch has a meaning: no command runs, and the two buffers are apart. -/
abbrev State.canLaunch (s : State) : Prop := s.phase = .idle ∧ s.buffersOverlap = false

/-- Whether the decode loop passes its end test and its guard, so that the next core step runs a token
(41_decode_loop.md R123, R124). -/
abbrev State.tokenDue (s : State) : Prop :=
  s.phase = .loop ∧ s.outCursor.toNat ≠ s.decodedSize ∧ s.pc.toNat + s.params.padLen < s.inLen.toNat

/-- The bytes `bs` stand in IN from offset `a` on. -/
abbrev State.holds (s : State) (a : Nat) (bs : List Byte) : Prop :=
  ∀ k (h : k < bs.length), Memory.read s.inMem (a + k) = bs[k]

/-- The bytes of a stream of tokens. -/
def streamBytes (tokens : List Instr) : List Byte := tokens.flatMap Instr.bytes

/-- How many pixels a stream of tokens gives. -/
def streamPixels (tokens : List Instr) : Nat := (tokens.map pixelCount).sum

/-- The registers of `t` are those a command end leaves: idle, exactly one of `DONE` and `ERR` set. -/
abbrev State.ended (s : State) : Prop := s.phase = .idle ∧ s.done = !s.err

end Sys2Proof.Machine
end

