-- ==== Sys2Proof/Certificates/Slice0/Obligations.lean ====
section
/-! DEFINITION. The statements for the provers. -/

open Sys2Proof Sys2Proof.Machine

/-! ## Encoding -/

/-- 30_encoding.md R72 and 10_state.md R31: a few words written out from the encodings decode to what they stand for. -/
def Obligations.WrittenOutWordsDecode : Prop :=
  decodeToken [0b11111110, 1, 2, 3] = .ok (.rgb 1 2 3, []) ∧
  decodeToken [0b11111111, 10, 20, 30, 255] = .ok (.rgba 10 20 30 255, []) ∧
  decodeToken [0b00110101] = .ok (.index 53, []) ∧
  decodeToken [0b01011011] = .ok (.diff 1 2 3, []) ∧
  decodeToken [0b10100101, 0b10011100] = .ok (.luma 37 9 12, []) ∧
  decodeToken [0b11111101] = .ok (.run 61, []) ∧
  decodeCtrl 0xFFFFFFFD = .ok .parseHeader ∧ decodeCtrl 6 = .ok .decode ∧ decodeCtrl 3 = .ok .decodeWithDescriptor

/-- 30_encoding.md R72, R74, R80: decoding the words of a well-formed instruction gives it back, with every operand at
every value, and a token's bytes are taken off the stream exactly. -/
def Obligations.EncodeThenDecodeGivesBack : Prop :=
  ∀ i : Instr, i.wellFormed = true →
    decodeEncoded (encode i) = some i ∧
    (i.isToken = true → ∀ rest, decodeToken (i.bytes ++ rest) = .ok (i, rest))

/-- 30_encoding.md R72: the bytes the decoder takes are the encoding of what it gives, which is a well-formed token. -/
def Obligations.DecodedBytesAreTheEncoding : Prop :=
  ∀ (bs rest : List Byte) (i : Instr), decodeToken bs = .ok (i, rest) →
    i.wellFormed = true ∧ i.isToken = true ∧ bs = i.bytes ++ rest

/-- 30_encoding.md R73, R75, R77: the first byte alone selects the token, the sentinels first, and its length, and the
decoder takes that many bytes. -/
def Obligations.FirstByteSelectsTokenAndLength : Prop :=
  ∀ (b0 : Byte) (tail rest : List Byte) (i : Instr), decodeToken (b0 :: tail) = .ok (i, rest) →
    (b0.toNat ≤ 0x3F → tokenLength b0 = 1 ∧ ∃ k, i = .index k) ∧
    (0x40 ≤ b0.toNat → b0.toNat ≤ 0x7F → tokenLength b0 = 1 ∧ ∃ dr dg db, i = .diff dr dg db) ∧
    (0x80 ≤ b0.toNat → b0.toNat ≤ 0xBF → tokenLength b0 = 2 ∧ ∃ dg drg dbg, i = .luma dg drg dbg) ∧
    (0xC0 ≤ b0.toNat → b0.toNat ≤ 0xFD → tokenLength b0 = 1 ∧ ∃ l, i = .run l) ∧
    (b0.toNat = 0xFE → tokenLength b0 = 4 ∧ ∃ r g b, i = .rgb r g b) ∧
    (b0.toNat = 0xFF → tokenLength b0 = 5 ∧ ∃ r g b a, i = .rgba r g b a) ∧
    rest.length + tokenLength b0 = tail.length + 1

/-- 30_encoding.md R76: no first byte and no later byte is illegal: any five bytes begin with a token. -/
def Obligations.AnyFiveBytesBeginWithAToken : Prop :=
  ∀ b0 b1 b2 b3 b4 : Byte, ∃ (i : Instr) (rest : List Byte),
    decodeToken [b0, b1, b2, b3, b4] = .ok (i, rest) ∧ i.length = tokenLength b0 ∧
    rest = [b0, b1, b2, b3, b4].drop (tokenLength b0)

/-- 30_encoding.md R80, R74: the delta and run statements assemble exactly for operands in their ranges, to tokens whose
fields stand for the operands as written. -/
def Obligations.AssembledOperandsAreAsWritten : Prop :=
  (∀ dr dg db : Int,
    if -2 ≤ dr ∧ dr ≤ 1 ∧ -2 ≤ dg ∧ dg ≤ 1 ∧ -2 ≤ db ∧ db ≤ 1 then
      ∃ fr fg fb, (AsmLine.diff dr dg db).token = some (.diff fr fg fb) ∧
        diffDelta fr = dr ∧ diffDelta fg = dg ∧ diffDelta fb = db
    else (AsmLine.diff dr dg db).token = none) ∧
  (∀ dg drg dbg : Int,
    if -32 ≤ dg ∧ dg ≤ 31 ∧ -8 ≤ drg ∧ drg ≤ 7 ∧ -8 ≤ dbg ∧ dbg ≤ 7 then
      ∃ fg fr fb, (AsmLine.luma dg drg dbg).token = some (.luma fg fr fb) ∧
        lumaGreen fg = dg ∧ lumaCross fg fr = dg + drg ∧ lumaCross fg fb = dg + dbg
    else (AsmLine.luma dg drg dbg).token = none) ∧
  (∀ n : Int,
    if 1 ≤ n ∧ n ≤ 62 then ∃ l, (AsmLine.run n).token = some (.run l) ∧ (pixelCount (.run l) : Int) = n
    else (AsmLine.run n).token = none)

/-! ## Tokens -/

/-- 42_literal_tokens.md R140: the token's three bytes become r, g, b and alpha is kept, then write-back, output and
`pc + 4`. -/
def Obligations.RgbTokenEffect : Prop :=
  ∀ (r g b : Byte) (s : State), Memory.wf s.outMem → s.roomForPixel →
    (∀ rest, decodeToken ([0xFE, r, g, b] ++ rest) = .ok (.rgb r g b, rest)) ∧
    ∃ t, exec (.rgb r g b) s = .next t ∧ TokenEffect 4 ⟨r, g, b, tokenAlpha s s.px.a⟩ s t

/-- 42_literal_tokens.md R142: the token's four bytes become r, g, b, a (alpha is forced only with `FORCED_255` in a
3-channel mode), then write-back, output and `pc + 5`. -/
def Obligations.RgbaTokenEffect : Prop :=
  ∀ (r g b a : Byte) (s : State), Memory.wf s.outMem → s.roomForPixel →
    (∀ rest, decodeToken ([0xFF, r, g, b, a] ++ rest) = .ok (.rgba r g b a, rest)) ∧
    ∃ t, exec (.rgba r g b a) s = .next t ∧ TokenEffect 5 ⟨r, g, b, tokenAlpha s a⟩ s t

/-- 43_cache_token.md R150: the pixel is the entry as it was before the token's own write-back, which goes to the pixel's
own hash; then output and `pc + 1`. -/
def Obligations.IndexTokenEffect : Prop :=
  ∀ (i : BitVec 6) (s : State), Memory.wf s.outMem → s.roomForPixel →
    (∀ rest, decodeToken (BitVec.ofNat 8 i.toNat :: rest) = .ok (.index i, rest)) ∧
    ∃ t, exec (.index i) s = .next t ∧
      TokenEffect 1 ⟨(s.cacheAt i).r, (s.cacheAt i).g, (s.cacheAt i).b, tokenAlpha s (s.cacheAt i).a⟩ s t

/-- 44_delta_tokens.md R161: each lane plus its field minus 2, modulo 256, alpha kept; then write-back, output and
`pc + 1`. -/
def Obligations.DiffTokenEffect : Prop :=
  ∀ (dr dg db : BitVec 2) (s : State), Memory.wf s.outMem → s.roomForPixel →
    (∀ rest, decodeToken (BitVec.ofNat 8 (64 + 16 * dr.toNat + 4 * dg.toNat + db.toNat) :: rest) =
      .ok (.diff dr dg db, rest)) ∧
    ∃ t q, exec (.diff dr dg db) s = .next t ∧
      (q.r.toNat : Int) = (s.px.r.toNat + ((dr.toNat : Int) - 2)) % 256 ∧
      (q.g.toNat : Int) = (s.px.g.toNat + ((dg.toNat : Int) - 2)) % 256 ∧
      (q.b.toNat : Int) = (s.px.b.toNat + ((db.toNat : Int) - 2)) % 256 ∧
      q.a = tokenAlpha s s.px.a ∧ TokenEffect 1 q s t

/-- 44_delta_tokens.md R163: green plus `vg`, red and blue plus their fields minus 8 plus `vg`, modulo 256, alpha kept;
then write-back, output and `pc + 2`. -/
def Obligations.LumaTokenEffect : Prop :=
  ∀ (dg : BitVec 6) (drg dbg : BitVec 4) (s : State), Memory.wf s.outMem → s.roomForPixel →
    (∀ rest, decodeToken (BitVec.ofNat 8 (128 + dg.toNat) :: BitVec.ofNat 8 (16 * drg.toNat + dbg.toNat) :: rest) =
      .ok (.luma dg drg dbg, rest)) ∧
    ∃ t q, exec (.luma dg drg dbg) s = .next t ∧
      (q.g.toNat : Int) = (s.px.g.toNat + ((dg.toNat : Int) - 32)) % 256 ∧
      (q.r.toNat : Int) = (s.px.r.toNat + ((drg.toNat : Int) - 8 + ((dg.toNat : Int) - 32))) % 256 ∧
      (q.b.toNat : Int) = (s.px.b.toNat + ((dbg.toNat : Int) - 8 + ((dg.toNat : Int) - 32))) % 256 ∧
      q.a = tokenAlpha s s.px.a ∧ TokenEffect 2 q s t

/-- 45_run_token.md R171: `L + 1` repetitions are due, `pc + 1`, and nothing else changes. -/
def Obligations.RunTokenEffect : Prop :=
  ∀ (l : BitVec 6) (s : State), l.toNat ≤ 61 →
    (∀ rest, decodeToken (BitVec.ofNat 8 (192 + l.toNat) :: rest) = .ok (.run l, rest)) ∧
    ∃ t, exec (.run l) s = .next t ∧ t.runLeft.toNat = l.toNat + 1 ∧
      t = { s with runLeft := t.runLeft, pc := s.pc + 1, phase := .run }

/-- 44_delta_tokens.md R160: the addition is modulo 256 on three lanes for every integer delta, with neither carry nor
clamp; no status bit and no code records a wrap, and none is an error. -/
def Obligations.DeltaAdditionWraps : Prop :=
  (∀ (q : Pixel) (dr dg db : Int),
    ((addDeltas q dr dg db).r.toNat : Int) = (q.r.toNat + dr) % 256 ∧
    ((addDeltas q dr dg db).g.toNat : Int) = (q.g.toNat + dg) % 256 ∧
    ((addDeltas q dr dg db).b.toNat : Int) = (q.b.toNat + db) % 256 ∧ (addDeltas q dr dg db).a = q.a) ∧
  ∀ (i : Instr) (s : State), s.roomForPixel →
    ((∃ dr dg db, i = .diff dr dg db) ∨ ∃ dg drg dbg, i = .luma dg drg dbg) →
    ∃ t, exec i s = .next t ∧ t.done = s.done ∧ t.err = s.err ∧ t.code = s.code

/-- 44_delta_tokens.md R164: the delta tokens never change alpha; in a 3-channel mode with `FORCED_255` it is 255 before
and after. -/
def Obligations.DeltaTokensKeepAlpha : Prop :=
  ∀ (i : Instr) (s t : State), MachineInv s → s.phase = .loop →
    ((∃ dr dg db, i = .diff dr dg db) ∨ ∃ dg drg dbg, i = .luma dg drg dbg) → exec i s = .next t →
    t.px.a = s.px.a ∧ (s.ch = .three → s.params.alphaRgb = .forced255 → s.px.a = 255 ∧ t.px.a = 255)

/-- 70_reset_and_hazards.md R205: a lookup of the slot that the token just before it wrote back reads that token's pixel. -/
def Obligations.LookupSeesThePreviousWriteBack : Prop :=
  ∀ (i : Instr) (s t : State), i.isToken = true → (∀ l, i ≠ .run l) → exec i s = .next t → t.roomForPixel →
    ∃ u, exec (.index (t.params.hash t.px)) t = .next u ∧ u.px = t.px ∧ u.cacheAt (t.params.hash t.px) = t.px

/-- 20_memory.md R55: no OUT byte at or beyond `OUT_LEN` is written: a pixel token without room stops (log entry 13). -/
def Obligations.PixelTokenWithoutRoomStops : Prop :=
  ∀ (i : Instr) (s : State), i.isToken = true → (∀ l, i ≠ .run l) → ¬s.roomForPixel →
    exec i s = .fault .writePastOutput

/-! ## Commands -/

/-- 40_commands.md R100, R104, R105: the two commands that begin with a header start in one step.
That OUT is then not acquired is the model's choice (log entry 17). -/
def Obligations.HeaderCommandsStart : Prop :=
  ∀ s : State, s.canLaunch →
    exec .parseHeader s =
      .next { s with phase := .hdr, cmd := .parseHeader, done := false, err := false, code := 0, acquired := false } ∧
    exec .decode s =
      .next { s with phase := .hdr, cmd := .decode, done := false, err := false, code := 0, acquired := false }

/-- 40_commands.md R106, 41_decode_loop.md R120, R121: a descriptor of zero width or height succeeds at once, whatever
`OUT_LEN` and IN are.
That OUT is then not acquired is the model's choice (log entry 17). -/
def Obligations.DescriptorDecodeOfEmptyImage : Prop :=
  ∀ s : State, s.canLaunch → (s.width = 0 ∨ s.height = 0) →
    ∃ t, exec .decodeWithDescriptor s = .next t ∧ t.succeeded ∧ t.cmd = .decodeWithDescriptor ∧
      t.acquired = false ∧ t.pc = s.start ∧ t.outCursor = 0 ∧ t.runLeft = 0 ∧ t.decodedSize = 0 ∧
      t.ch.count = (if s.mode.getLsbD 0 then 4 else 3) ∧ SamePixels s t ∧ SameInputs s t ∧ SameDescriptor s t

/-- 40_commands.md R106, 41_decode_loop.md R120, R121: a buffer smaller than the exact `decoded_size` fails at once.
That OUT is then not acquired is the model's choice (log entry 17). -/
def Obligations.DescriptorDecodeIntoSmallBuffer : Prop :=
  ∀ s : State, s.canLaunch → s.width ≠ 0 → s.height ≠ 0 →
    s.outLen.toNat < s.width.toNat * s.height.toNat * (if s.mode.getLsbD 0 then 4 else 3) →
    ∃ t, exec .decodeWithDescriptor s = .next t ∧ t.failed 5 ∧ t.cmd = .decodeWithDescriptor ∧
      t.acquired = false ∧ t.pc = s.start ∧ t.outCursor = 0 ∧ t.runLeft = 0 ∧
      t.decodedSize = s.width.toNat * s.height.toNat * (if s.mode.getLsbD 0 then 4 else 3) ∧
      t.ch.count = (if s.mode.getLsbD 0 then 4 else 3) ∧ SamePixels s t ∧ SameInputs s t ∧ SameDescriptor s t

/-- 40_commands.md R106, 41_decode_loop.md R120, R122: past both exits the decode is initialised, in the start's step.
That OUT is then not acquired is the model's choice (log entry 17). -/
def Obligations.DescriptorDecodeEntersLoop : Prop :=
  ∀ s : State, s.canLaunch → s.width ≠ 0 → s.height ≠ 0 →
    s.width.toNat * s.height.toNat * (if s.mode.getLsbD 0 then 4 else 3) ≤ s.outLen.toNat →
    ∃ t, exec .decodeWithDescriptor s = .next t ∧ t.initialised ∧ t.cmd = .decodeWithDescriptor ∧
      t.acquired = false ∧ t.pc = s.start ∧ t.outCursor = 0 ∧ t.runLeft = 0 ∧
      t.decodedSize = s.width.toNat * s.height.toNat * (if s.mode.getLsbD 0 then 4 else 3) ∧
      t.ch.count = (if s.mode.getLsbD 0 then 4 else 3) ∧ SameInputs s t ∧ SameDescriptor s t

/-- 40_commands.md R100: any command while one runs is ignored. -/
def Obligations.CommandWhileBusyIsIgnored : Prop :=
  ∀ (i : Instr) (s : State), i.isToken = false → s.phase ≠ .idle → exec i s = .next s

/-- 20_memory.md R51: a launch is refused exactly where an address lies in both buffers.
That no range of addresses wraps is the model's choice (log entry 18). -/
def Obligations.OverlappingLaunchIsRefused : Prop :=
  ∀ (i : Instr) (s : State), i.isToken = false → s.phase = .idle →
    let shared := ∃ x, s.params.inBase ≤ x ∧ x < s.params.inBase + s.inLen.toNat ∧
      s.params.outBase ≤ x ∧ x < s.params.outBase + s.outLen.toNat
    (shared → exec i s = .refused .overlappingBuffers) ∧ (¬shared → ∃ t, exec i s = .next t)

/-! ## The header -/

/-- 40_commands.md R102, 60_exceptions.md R181, R183: the header's four errors in the order of their checks, each ending
the command with no other change. -/
def Obligations.HeaderErrorsInOrder : Prop :=
  ∀ s : State, s.moves = [] → s.phase = .hdr →
    if s.inLen.toNat < 14 then step s = .next { s with code := 1, err := true, phase := .idle }
    else if inNumber s 0 ≠ s.params.magic.toNat then step s = .next { s with code := 2, err := true, phase := .idle }
    else if 1 < headerTag s then step s = .next { s with code := 4, err := true, phase := .idle }
    else if headerChannels s ≠ 3 ∧ headerChannels s ≠ 4 then
      step s = .next { s with code := 3, err := true, phase := .idle }
    else s.headerGood

/-- 40_commands.md R103, R104: a header that passes ends `PARSE_HEADER` with the descriptor written and nothing else. -/
def Obligations.ParseHeaderWritesTheDescriptor : Prop :=
  ∀ s : State, s.moves = [] → s.phase = .hdr → s.cmd = .parseHeader → s.headerGood →
    ∃ t, step s = .next t ∧ s.describes t ∧
      t = { s with width := t.width, height := t.height, mode := t.mode, done := true, phase := .idle }

/-- 40_commands.md R102, R105, 41_decode_loop.md R120 to R122: a header that passes enters `DECODE`'s loop at offset 14,
or takes one of the two exits. -/
def Obligations.DecodeEntersAtFourteen : Prop :=
  ∀ s : State, s.moves = [] → s.phase = .hdr → s.cmd = .decode → s.headerGood →
    s.done = false → s.err = false → s.code = 0 →
    ∃ t, step s = .next t ∧ s.describes t ∧ t.acquired = s.acquired ∧ t.cmd = .decode ∧ t.pc = 14 ∧
      t.outCursor = 0 ∧ t.runLeft = 0 ∧
      t.ch.count = headerChannels s ∧ t.decodedSize = inNumber s 4 * inNumber s 8 * headerChannels s ∧
      SameInputs s t ∧
      if inNumber s 4 = 0 ∨ inNumber s 8 = 0 then t.succeeded ∧ SamePixels s t
      else if s.outLen.toNat < t.decodedSize then t.failed 5 ∧ SamePixels s t
      else t.initialised

/-- 40_commands.md R108: `PARSE_HEADER` run again over the same bytes ends in the same state. -/
def Obligations.ParseHeaderTwiceEndsAlike : Prop :=
  ∀ s : State, s.canLaunch → s.moves = [] →
    ∃ t u, exec .parseHeader s = .next t ∧ step t = .next u ∧ u.phase = .idle ∧
      ∃ t', exec .parseHeader u = .next t' ∧ step t' = .next u

/-! ## The decode loop -/

/-- 41_decode_loop.md R123, 60_exceptions.md R186: at `decoded_size` the loop ends with success and no other change,
before the guard is looked at. -/
def Obligations.LoopEndsAtDecodedSize : Prop :=
  ∀ s : State, s.moves = [] → s.phase = .loop → s.outCursor.toNat = s.decodedSize →
    step s = .next { s with done := true, phase := .idle }

/-- 41_decode_loop.md R124, 60_exceptions.md R181: at most `PAD_LEN` bytes left, as an integer difference, fail the guard
with no other change; with a legal `PAD_LEN`, past the guard at least 5 bytes are left and the token lies inside IN. -/
def Obligations.GuardRaisesDataTooSmall : Prop :=
  ∀ s : State, s.moves = [] → s.phase = .loop → s.outCursor.toNat ≠ s.decodedSize →
    ((s.inLen.toNat : Int) - s.pc.toNat ≤ s.params.padLen →
      step s = .next { s with code := 1, err := true, phase := .idle }) ∧
    ((s.params.padLen : Int) < s.inLen.toNat - s.pc.toNat → s.params.legal →
      s.pc.toNat + 5 ≤ s.inLen.toNat ∧
        s.pc.toNat + tokenLength (Memory.read s.inMem s.pc.toNat) ≤ s.inLen.toNat)

/-- 41_decode_loop.md R125: past the end test and the guard, a step is the exec of the token whose bytes stand at `pc`. -/
def Obligations.StepRunsTheTokenAtPc : Prop :=
  ∀ (i : Instr) (s : State), s.moves = [] → s.params.legal → s.tokenDue → i.isToken = true → i.wellFormed = true →
    s.holds s.pc.toNat i.bytes → step s = exec i s

/-- 40_commands.md R100, 10_state.md R31: the host's write of `CTRL` is the exec of the command its two low bits name,
and a write of `CMD = 0` is ignored. -/
def Obligations.StepRunsTheCommandWritten : Prop :=
  ∀ (s : State) (w : Word32) (rest : List HostMove),
    s.moves = .csrWrite s.params.csrBase .word w :: rest → s.phase = .idle →
    (w.toNat % 4 = 0 → step s = .next { s with moves := rest }) ∧
    (w.toNat % 4 = 1 → step s = exec .parseHeader { s with moves := rest }) ∧
    (w.toNat % 4 = 2 → step s = exec .decode { s with moves := rest }) ∧
    (w.toNat % 4 = 3 → step s = exec .decodeWithDescriptor { s with moves := rest })

/-- 45_run_token.md R172: a repetition writes the running pixel once more, or ends the command where it would pass
`decoded_size`. -/
def Obligations.RunRepetitionStep : Prop :=
  ∀ s : State, s.moves = [] → s.phase = .run →
    (s.decodedSize < s.outCursor.toNat + s.ch.count →
      step s = .next { s with code := 5, err := true, phase := .idle }) ∧
    (s.outCursor.toNat + s.ch.count ≤ s.decodedSize → s.roomForPixel → Memory.wf s.outMem →
      ∃ t, step s = .next t ∧ PixelWritten s.px s t ∧ SameOutsideToken s t ∧ SamePixels s t ∧ t.pc = s.pc ∧
        t.runLeft = s.runLeft - 1 ∧ t.phase = if s.runLeft = 1 then .loop else .run)

/-- 45_run_token.md R173, 60_exceptions.md R182: where a run fails, the pixel cursor stands at `decoded_size` and 1 to 61
repetitions are left. -/
def Obligations.FailedRunStandsAtTheEnd : Prop :=
  ∀ s t : State, MachineInv s → s.moves = [] → s.phase = .run → step s = .next t → t.err = true →
    t.code = 5 ∧ t.outCursor.toNat = t.decodedSize ∧ 1 ≤ t.runLeft.toNat ∧ t.runLeft.toNat ≤ 61

/-- 45_run_token.md R170, R174: a run under way, stepped until its repetitions are written or one does not fit, ends in
the state of the fused run. -/
def Obligations.RunEqualsItsFusedForm : Prop :=
  ∀ s : State, MachineInv s → s.moves = [] → s.phase = .run →
    Host.Core.run core
      (s.fittingRepetitions + if s.fittingRepetitions < s.runLeft.toNat then 1 else 0) s = .next (fusedRun s)

/-! ## The host's side -/

/-- 10_state.md R31 to R37, R41, R45: what the host reads at the registers that are exact at any time, and that such a
read changes nothing else but that a read of `STATUS` with `BUSY = 0` acquires (20_memory.md R61).
That the other registers read exactly also in an idle machine whose `BUSY = 0` the host has not read yet, and the
configuration registers while busy, is the model's choice (log entry 17). -/
def Obligations.ExactRegistersRead : Prop :=
  ∀ (s : State) (rest : List HostMove) (off v : Nat),
    s.moves = .csrRead (s.params.csrBase + off) .word :: rest →
    (off, v) ∈ [(0x00, 0),
      (0x04, (if s.phase = .idle then 0 else 1) + (if s.done then 2 else 0) + (if s.err then 4 else 0)),
      (0x08, s.code.toNat), (0x0C, s.inLen.toNat), (0x10, s.outLen.toNat), (0x14, s.start.toNat),
      (0x18, s.width.toNat), (0x1C, s.height.toNat), (0x20, s.mode.toNat)] →
    step s = .next { s with
      moves := rest, hostData := BitVec.ofNat 32 v
      acquired := if off = 0x04 ∧ s.phase = .idle then true else s.acquired }

/-- 10_state.md R38, R39, R40: what the host reads at the progress registers while no command runs.
That they read exactly also before the host has read `BUSY = 0` is the model's choice (log entry 17). -/
def Obligations.ProgressRegistersReadWhenIdle : Prop :=
  ∀ (s : State) (rest : List HostMove) (off v : Nat),
    s.moves = .csrRead (s.params.csrBase + off) .word :: rest → s.phase = .idle →
    ((off, v) ∈ [(0x24, s.pc.toNat), (0x28, s.outCursor.toNat), (0x2C, pixelNumber s.px), (0x30, s.runLeft.toNat)] ∨
      ∃ i : BitVec 6, off = 0x100 + 4 * i.toNat ∧ v = pixelNumber (s.cacheAt i)) →
    step s = .next { s with moves := rest, hostData := BitVec.ofNat 32 v }

/-- 10_state.md R41, R40: while a command runs, a progress register reads as some word (in `RUN_LEFT` below 64), and the
read changes nothing of the core.
The word is a free value: it is that of no register, and the statement holds for every one. -/
def Obligations.ProgressRegistersAreDrawnWhenBusy : Prop :=
  ∀ (s : State) (rest : List HostMove) (off : Nat),
    s.moves = .csrRead (s.params.csrBase + off) .word :: rest → s.phase ≠ .idle →
    (off ∈ [0x24, 0x28, 0x2C, 0x30] ∨ ∃ i : BitVec 6, off = 0x100 + 4 * i.toNat) →
    ∃ w : Word32, step s = .next { s with moves := rest, hostData := w, draws := s.draws + 1 } ∧
      (off = 0x30 → w.toNat < 64)

/-- 10_state.md R30, R34 to R37: while no command runs, a write of a read-write register is taken (`MODE` takes bits 1..0),
and a write of a read-only register or of an offset not in the table is ignored.
That the write is taken also before the host has read `BUSY = 0` is the model's choice (log entry 17). -/
def Obligations.RegisterWritesWhenIdle : Prop :=
  ∀ (s : State) (rest : List HostMove) (off : Nat) (v : Word32),
    s.moves = .csrWrite (s.params.csrBase + off) .word v :: rest → s.phase = .idle →
    (off = 0x0C → step s = .next { s with moves := rest, inLen := v }) ∧
    (off = 0x10 → step s = .next { s with moves := rest, outLen := v }) ∧
    (off = 0x14 → step s = .next { s with moves := rest, start := v }) ∧
    (off = 0x18 → step s = .next { s with moves := rest, width := v }) ∧
    (off = 0x1C → step s = .next { s with moves := rest, height := v }) ∧
    (off = 0x20 → step s = .next { s with moves := rest, mode := BitVec.ofNat 2 v.toNat }) ∧
    (off % 4 = 0 → (off = 0x04 ∨ off = 0x08 ∨ 0x24 ≤ off) → step s = .next { s with moves := rest })

/-- 10_state.md R30: an offset that is a multiple of 4 and not in the table reads 0. -/
def Obligations.UnmappedOffsetsReadZero : Prop :=
  ∀ (s : State) (rest : List HostMove) (off : Nat),
    s.moves = .csrRead (s.params.csrBase + off) .word :: rest → off % 4 = 0 →
    (0x34 ≤ off ∧ off < 0x100 ∨ 0x200 ≤ off) → step s = .next { s with moves := rest, hostData := 0 }

/-- 10_state.md R44: while a command runs, no register write has an effect, `CTRL` included. -/
def Obligations.RegisterWritesWhileBusyAreIgnored : Prop :=
  ∀ (s : State) (rest : List HostMove) (off : Nat) (v : Word32),
    s.moves = .csrWrite (s.params.csrBase + off) .word v :: rest → off % 4 = 0 → s.phase ≠ .idle →
    step s = .next { s with moves := rest }

/-- 10_state.md R30: an access that is not 32 bits wide at a multiple of 4 is refused. -/
def Obligations.OtherRegisterAccessesAreRefused : Prop :=
  ∀ (s : State) (rest : List HostMove) (off : Nat) (width : AccessWidth) (v : Word32),
    (s.moves = .csrRead (s.params.csrBase + off) width :: rest ∨
      s.moves = .csrWrite (s.params.csrBase + off) width v :: rest) →
    (width ≠ .word ∨ off % 4 ≠ 0) → step s = .refused .csrAccess

/-- 20_memory.md R60, R66, 70_reset_and_hazards.md R206: while no command runs the host's writes of IN and OUT change that
byte alone; while one runs it has no such write; a read of OUT gives the byte once the host has read `BUSY = 0`, and some
byte (a free value) before that, and changes nothing of the core.
That the accesses are answered at every 32-bit offset, whatever `IN_LEN` and `OUT_LEN` are, is the model's choice (log
entry 15); so is that a write is taken also before the host has read `BUSY = 0` (log entry 17). -/
def Obligations.HostMemoryMoves : Prop :=
  ∀ (s : State) (rest : List HostMove) (a : Word32) (v : Byte), Memory.wf s.inMem → Memory.wf s.outMem →
    (s.moves = .writeIn a v :: rest →
      if s.phase = .idle then
        ∃ t, step s = .next t ∧ Memory.read t.inMem a.toNat = v ∧
          (∀ x, x ≠ a.toNat → Memory.read t.inMem x = Memory.read s.inMem x) ∧
          t = { s with moves := rest, inMem := t.inMem }
      else step s = .refused .hostWriteWhileBusy) ∧
    (s.moves = .writeOut a v :: rest →
      if s.phase = .idle then
        ∃ t, step s = .next t ∧ Memory.read t.outMem a.toNat = v ∧
          (∀ x, x ≠ a.toNat → Memory.read t.outMem x = Memory.read s.outMem x) ∧
          t = { s with moves := rest, outMem := t.outMem }
      else step s = .refused .hostWriteWhileBusy) ∧
    (s.moves = .readOut a :: rest →
      if s.phase = .idle ∧ s.acquired = true then
        step s = .next { s with moves := rest, hostData := (Memory.read s.outMem a.toNat).setWidth 32 }
      else ∃ b : Byte, step s = .next { s with moves := rest, hostData := b.setWidth 32, draws := s.draws + 1 })

/-- 20_memory.md R60 item 2, R61, 70_reset_and_hazards.md R206: a read of `STATUS` that shows `BUSY = 0` acquires: the read
of OUT after it gives the byte that stands there, what the command wrote among it; and no other step acquires.
That the read of OUT is exact at every 32-bit offset, whatever `OUT_LEN` is, is the model's choice (log entry 15); so is
that a reset does not acquire (log entry 17). -/
def Obligations.StatusReadAcquires : Prop :=
  (∀ (s : State) (rest : List HostMove) (a : Word32), s.phase = .idle →
    s.moves = .csrRead (s.params.csrBase + 0x04) .word :: .readOut a :: rest →
    ∃ t u, step s = .next t ∧ t.hostData.getLsbD 0 = false ∧ step t = .next u ∧
      u.hostData.toNat = (Memory.read s.outMem a.toNat).toNat ∧ u.outMem = s.outMem) ∧
  (∀ s t : State, step s = .next t → s.acquired = false → t.acquired = true →
    s.phase = .idle ∧ ∃ rest, s.moves = .csrRead (s.params.csrBase + 0x04) .word :: rest)

/-! ## Reset and waiting -/

/-- 10_state.md R45, 70_reset_and_hazards.md R200: the registers and latches right after reset, where the spec gives a
value. -/
def Obligations.ResetValues : Prop :=
  let s := State.reset
  s.statusWord = 0 ∧ s.errorWord = 0 ∧ s.inLen = 0 ∧ s.outLen = 0 ∧ s.start = 14 ∧ s.width = 0 ∧ s.height = 0 ∧
    s.mode = 0 ∧ s.pc = 0 ∧ s.outCursor = 0 ∧ packPixel s.px = 0xFF000000 ∧ s.runLeft = 0 ∧
    (∀ i, packPixel (s.cacheAt i) = 0) ∧ s.phase = .idle ∧ s.ch.count = 3 ∧ s.decodedSize = 0

/-- 70_reset_and_hazards.md R200: reset in any state, a command running or not, gives every register and latch its reset
value and keeps the bytes of IN and OUT.
That `cmd` takes its reset value, that OUT is not acquired and that the parameters and the host's side stay is the
model's choice (log entries 2, 3, 5 and 17). -/
def Obligations.ResetAbandonsTheCommand : Prop :=
  ∀ (s : State) (rest : List HostMove), s.moves = .reset :: rest →
    step s = .next { State.reset with
      inMem := s.inMem, outMem := s.outMem, params := s.params, moves := rest, hostData := s.hostData, draws := s.draws }

/-- 60_exceptions.md R195, 41_decode_loop.md R137: in IDLE, with no move of the host, all state survives.
That the step answers the same state is the model's choice (log entry 8). -/
def Obligations.IdleCoreWaits : Prop :=
  ∀ s : State, s.phase = .idle → (s.moves = [] → step s = .next s) ∧
    ∀ rest, s.moves = .coreStep :: rest → step s = .next { s with moves := rest }

/-! ## The whole machine -/

/-- The invariant holds at reset. -/
def Obligations.InvariantAtReset : Prop := MachineInv State.reset

/-- Every step, of the host or of the core, keeps the invariant. -/
def Obligations.InvariantKeptByStep : Prop :=
  ∀ s t : State, MachineInv s → step s = .next t → MachineInv t

/-- 20_memory.md R55, 60_exceptions.md R184: from a state with the invariant no step reads past `IN_LEN`, writes past
`OUT_LEN` or meets an unmatched token, and the core's own step always answers a next state. -/
def Obligations.NoFaultFromTheInvariant : Prop :=
  ∀ s : State, MachineInv s → (∀ f, step s ≠ .fault f) ∧ (s.moves = [] → ∃ t, step s = .next t)

/-- No step changes the parameters (the model's choice to carry them in the state, log entry 2). -/
def Obligations.ParametersNeverChange : Prop :=
  ∀ s t : State, step s = .next t → t.params = s.params

/-- 20_memory.md R50, R63: IN changes only by a write of the host while no command runs. -/
def Obligations.InputChangesOnlyByTheHost : Prop :=
  ∀ s t : State, step s = .next t → t.inMem ≠ s.inMem →
    s.phase = .idle ∧ ∃ a v rest, s.moves = .writeIn a v :: rest ∧ t.inMem = Memory.write s.inMem a.toNat v

/-- 10_state.md R44, R43: while a command runs, only a reset changes `IN_LEN`, `OUT_LEN` and `START`, and only a reset or
the header parse changes the descriptor. -/
def Obligations.ConfigurationHoldsWhileBusy : Prop :=
  ∀ s t : State, s.phase ≠ .idle → (∀ rest, s.moves ≠ .reset :: rest) → step s = .next t →
    t.inLen = s.inLen ∧ t.outLen = s.outLen ∧ t.start = s.start ∧ (s.phase ≠ .hdr → SameDescriptor s t)

/-- 10_state.md R32: the host reads `DONE`, `ERR` and `CODE` as the last command left them until a command starts or the
block is reset. -/
def Obligations.StatusStaysUntilTheNextCommand : Prop :=
  ∀ s t : State, s.phase = .idle → (∀ rest, s.moves ≠ .reset :: rest) →
    (∀ w rest, s.moves ≠ .csrWrite s.params.csrBase .word w :: rest) → step s = .next t →
    t.phase = .idle ∧ t.done = s.done ∧ t.err = s.err ∧ t.code = s.code ∧ SamePixels s t ∧ t.pc = s.pc ∧
      t.outCursor = s.outCursor ∧ t.runLeft = s.runLeft

/-- 10_state.md R32, 60_exceptions.md R181, R186: the core step that ends a command sets exactly one of `DONE` and `ERR`,
with a code exactly after an error. -/
def Obligations.CommandEndsWithDoneOrErr : Prop :=
  ∀ s t : State, MachineInv s → s.moves = [] → s.phase ≠ .idle → step s = .next t →
    if t.phase = .idle then (t.done = !t.err) ∧ (t.err = true ↔ t.code ≠ 0)
    else t.done = false ∧ t.err = false ∧ t.code = 0

/-- 60_exceptions.md R180: which command can end with which error. -/
def Obligations.CommandsRaiseTheirOwnErrors : Prop :=
  (∀ s t : State, MachineInv s → s.moves = [] → s.phase ≠ .idle → step s = .next t → t.err = true →
    match s.cmd with
    | .parseHeader => t.code = 1 ∨ t.code = 2 ∨ t.code = 3 ∨ t.code = 4
    | .decode => t.code = 1 ∨ t.code = 2 ∨ t.code = 3 ∨ t.code = 4 ∨ t.code = 5
    | .decodeWithDescriptor => t.code = 1 ∨ t.code = 5) ∧
  (∀ s t : State, s.phase = .idle → exec .decodeWithDescriptor s = .next t → t.err = true → t.code = 5)

/-- 20_memory.md R57, R25: a core step of the decode loop writes OUT only from the pixel cursor before it to the one after
it, which never passes `decoded_size`, and any other core step writes no OUT byte. -/
def Obligations.OutputWrittenOnlyAtTheCursor : Prop :=
  ∀ s t : State, MachineInv s → s.moves = [] → step s = .next t →
    (s.decoding → s.outCursor.toNat ≤ t.outCursor.toNat ∧ t.outCursor.toNat ≤ s.decodedSize ∧
      ∀ a, a < s.outCursor.toNat ∨ t.outCursor.toNat ≤ a → Memory.read t.outMem a = Memory.read s.outMem a) ∧
    (¬s.decoding → t.outMem = s.outMem)

/-- 41_decode_loop.md R133, 10_state.md R24: a core step leaves the byte cursor where it is, moves it past the token it
ran, or loads it with 14 after a header; it never wraps. -/
def Obligations.ByteCursorOnlyAdvances : Prop :=
  ∀ s t : State, MachineInv s → s.moves = [] → step s = .next t →
    t.pc = s.pc ∨
    (s.tokenDue ∧ t.pc.toNat = s.pc.toNat + tokenLength (Memory.read s.inMem s.pc.toNat) ∧
      t.pc.toNat ≤ s.inLen.toNat) ∨
    (s.phase = .hdr ∧ t.pc = 14)

/-- 41_decode_loop.md R134: a command left to run ends, with success or an error, within `63 * IN_LEN + 64` core steps. -/
def Obligations.EveryCommandEnds : Prop :=
  ∀ s : State, MachineInv s → s.moves = [] → s.phase ≠ .idle →
    ∃ t, Host.Core.run core (63 * s.inLen.toNat + 64) s = .next t ∧ t.phase = .idle ∧ (t.done = !t.err)

/-- 41_decode_loop.md R135: from the start of a decode loop, or from any token of it, a stream of tokens whose pixels are
exactly those that are missing, with at least `PAD_LEN` bytes after it, decodes with success; the cursors stand at the
end of the image and after the last token. -/
def Obligations.ConformingStreamDecodes : Prop :=
  ∀ (s : State) (tokens : List Instr), MachineInv s → s.moves = [] → s.phase = .loop →
    (∀ i ∈ tokens, i.isToken = true ∧ i.wellFormed = true) →
    s.outCursor.toNat + streamPixels tokens * s.ch.count = s.decodedSize →
    s.holds s.pc.toNat (streamBytes tokens) →
    s.pc.toNat + (streamBytes tokens).length + s.params.padLen ≤ s.inLen.toNat →
    ∃ k t, Host.Core.run core k s = .next t ∧ t.succeeded ∧ t.outCursor.toNat = s.decodedSize ∧
      t.pc.toNat = s.pc.toNat + (streamBytes tokens).length

/-- 40_commands.md R109, 20_memory.md R50: what OUT held at and beyond the pixel cursor, and what the host has read, never
reaches the core: after any number of core steps two states that differ in nothing else still differ in nothing else. -/
def Obligations.EarlierOutputNeverReachesTheCore : Prop :=
  ∀ (k : Nat) (s₁ s₂ t₁ : State), SameDecode s₁ s₂ → Memory.wf s₁.outMem → Memory.wf s₂.outMem → s₁.moves = [] →
    Host.Core.run core k s₁ = .next t₁ → ∃ t₂, Host.Core.run core k s₂ = .next t₂ ∧ SameDecode t₁ t₂

/-- 43_cache_token.md R152, 40_commands.md R109: what an earlier command left in the pixel, the cache, the cursors, the
latches, the status and OUT does not reach a decode that gets past the early exits. -/
def Obligations.EarlierDecodeNeverReachesTheNext : Prop :=
  ∀ s₁ s₂ : State, s₁.canLaunch → s₂.phase = .idle → s₂.inLen = s₁.inLen → s₂.outLen = s₁.outLen →
    s₂.start = s₁.start → SameDescriptor s₁ s₂ → s₂.inMem = s₁.inMem → s₂.params = s₁.params → s₂.moves = s₁.moves →
    s₁.width ≠ 0 → s₁.height ≠ 0 →
    s₁.width.toNat * s₁.height.toNat * (if s₁.mode.getLsbD 0 then 4 else 3) ≤ s₁.outLen.toNat →
    ∃ t₁ t₂, exec .decodeWithDescriptor s₁ = .next t₁ ∧ exec .decodeWithDescriptor s₂ = .next t₂ ∧ SameDecode t₁ t₂
end

