-- ==== Sys2Proof/Laws/Memory.lean ====
section
/-! SUPPORT. The laws of the two byte spaces: what a byte reads as after a write, and that every write keeps the
canonical form. -/

namespace Sys2Proof.Machine

@[simp] theorem Memory.read_nil (a : Nat) : Memory.read [] a = Memory.blank := rfl

theorem Memory.wf_nil : Memory.wf [] := by simp [Memory.wf]

theorem Memory.wf_tail {c : Host.Cell} {m : Memory} (h : Memory.wf (c :: m)) : Memory.wf m :=
  ⟨(List.pairwise_cons.1 h.1).2, fun d hd => h.2 d (List.mem_cons_of_mem _ hd)⟩

/-- An offset below every listed one reads as an unlisted byte. -/
theorem Memory.read_below {m : Memory} {a : Nat} (h : ∀ c ∈ m, a < c.1) : Memory.read m a = Memory.blank := by
  induction m with
  | nil => rfl
  | cons c m ih =>
    have hne : c.1 ≠ a := (h c List.mem_cons_self).ne'
    simp [Memory.read, hne, ih fun d hd => h d (List.mem_cons_of_mem _ hd)]

/-- A write leaves every other byte alone. -/
theorem Memory.read_write_other (m : Memory) {a x : Nat} (v : Byte) (h : x ≠ a) :
    Memory.read (Memory.write m a v) x = Memory.read m x := by
  induction m with
  | nil => by_cases hv : v = Memory.blank <;> simp [Memory.write, Memory.read, hv, h.symm]
  | cons c m ih =>
    obtain ⟨k, u⟩ := c
    simp only [Memory.write]
    split
    · split <;> simp [Memory.read, h.symm]
    · split
      · rename_i _ hk
        subst hk
        split <;> simp [Memory.read, h.symm]
      · simp [Memory.read, ih]

/-- A read after a write to the same place gives the value written. -/
theorem Memory.read_write_same {m : Memory} (hm : Memory.wf m) (a : Nat) (v : Byte) :
    Memory.read (Memory.write m a v) a = v := by
  induction m with
  | nil => by_cases hv : v = Memory.blank <;> simp [Memory.write, Memory.read, hv]
  | cons c m ih =>
    obtain ⟨k, u⟩ := c
    have hbelow := (List.pairwise_cons.1 hm.1).1
    simp only [Memory.write]
    split
    · rename_i hak
      split
      · rename_i hv
        rw [hv]
        refine Memory.read_below fun d hd => ?_
        rcases List.mem_cons.1 hd with rfl | hd
        · exact hak
        · exact lt_trans hak (hbelow d hd)
      · simp [Memory.read]
    · split
      · rename_i _ hk
        subst hk
        split
        · rename_i hv
          rw [hv]
          exact Memory.read_below hbelow
        · simp [Memory.read]
      · rename_i hk
        simp [Memory.read, Ne.symm hk, ih (Memory.wf_tail hm)]

/-- Where the entries of a written space come from. -/
theorem Memory.mem_write {m : Memory} {a : Nat} {v : Byte} {c : Host.Cell} (h : c ∈ Memory.write m a v) :
    c ∈ m ∨ (c = (a, v) ∧ v ≠ Memory.blank) := by
  induction m with
  | nil =>
    by_cases hv : v = Memory.blank <;> simp [Memory.write, hv] at h
    exact .inr ⟨h, hv⟩
  | cons d m ih =>
    obtain ⟨k, u⟩ := d
    simp only [Memory.write] at h
    split at h <;> split at h
    · exact .inl h
    · rename_i hv
      exact (List.mem_cons.1 h).elim (fun h => .inr ⟨h, hv⟩) .inl
    · split at h
      · exact .inl (List.mem_cons_of_mem _ h)
      · rename_i hv
        exact (List.mem_cons.1 h).elim (fun h => .inr ⟨h, hv⟩) fun h => .inl (List.mem_cons_of_mem _ h)
    · exact (List.mem_cons.1 h).elim (fun h => .inl (h ▸ List.mem_cons_self))
        fun h => (ih h).imp_left (List.mem_cons_of_mem _)

/-- A write of a 32-bit offset keeps the canonical form. -/
theorem Memory.wf_write {m : Memory} (hm : Memory.wf m) {a : Nat} (ha : a < 2 ^ 32) (v : Byte) :
    Memory.wf (Memory.write m a v) := by
  refine ⟨?_, fun c hc => ?_⟩
  · induction m with
    | nil => by_cases hv : v = Memory.blank <;> simp [Memory.write, hv]
    | cons c m ih =>
      obtain ⟨k, u⟩ := c
      have hc := List.pairwise_cons.1 hm.1
      have htail := Memory.wf_tail hm
      simp only [Memory.write]
      split
      · rename_i hak
        split
        · exact hm.1
        · refine List.pairwise_cons.2 ⟨fun d hd => ?_, hm.1⟩
          rcases List.mem_cons.1 hd with rfl | hd
          · exact hak
          · exact lt_trans hak (hc.1 d hd)
      · split
        · rename_i _ hk
          subst hk
          split
          · exact hc.2
          · exact List.pairwise_cons.2 ⟨hc.1, hc.2⟩
        · rename_i h1 h2
          refine List.pairwise_cons.2 ⟨fun d hd => ?_, ih htail⟩
          rcases Memory.mem_write hd with hd | ⟨rfl, _⟩
          · exact hc.1 d hd
          · show k < a
            omega
  · rcases Memory.mem_write hc with hc | ⟨rfl, hv⟩
    · exact hm.2 c hc
    · exact ⟨hv, ha⟩

/-- Writing bytes leaves every byte outside their range alone. -/
theorem Memory.read_writeBytes_other (m : Memory) (a : Nat) (vs : List Byte) {x : Nat}
    (h : x < a ∨ a + vs.length ≤ x) : Memory.read (Memory.writeBytes m a vs) x = Memory.read m x := by
  induction vs generalizing m a with
  | nil => rfl
  | cons v vs ih =>
    simp only [List.length_cons] at h
    rw [Memory.writeBytes, ih _ _ (by omega), Memory.read_write_other _ _ (by omega)]

/-- Writing bytes keeps the canonical form. -/
theorem Memory.wf_writeBytes {m : Memory} (hm : Memory.wf m) {a : Nat} {vs : List Byte}
    (h : a + vs.length ≤ 2 ^ 32) : Memory.wf (Memory.writeBytes m a vs) := by
  induction vs generalizing m a with
  | nil => exact hm
  | cons v vs ih =>
    simp only [List.length_cons] at h
    exact ih (Memory.wf_write hm (by omega) v) (by omega)

/-- Each written byte reads as it was written. -/
theorem Memory.read_writeBytes_inside {m : Memory} (hm : Memory.wf m) {a : Nat} {vs : List Byte}
    (h : a + vs.length ≤ 2 ^ 32) {k : Nat} (hk : k < vs.length) :
    Memory.read (Memory.writeBytes m a vs) (a + k) = vs[k] := by
  induction vs generalizing m a k with
  | nil => simp at hk
  | cons v vs ih =>
    simp only [List.length_cons] at h hk
    cases k with
    | zero =>
      rw [Memory.writeBytes, Memory.read_writeBytes_other _ _ _ (by omega)]
      exact Memory.read_write_same hm a v
    | succ k =>
      have hw := ih (a := a + 1) (Memory.wf_write hm (a := a) (by omega) v) (by omega) (k := k) (by omega)
      rw [show a + (k + 1) = a + 1 + k by omega]
      simpa [Memory.writeBytes] using hw

/-- Writing two lists of bytes one after the other is writing their concatenation. -/
theorem Memory.writeBytes_append (m : Memory) (a : Nat) (vs ws : List Byte) :
    Memory.writeBytes m a (vs ++ ws) = Memory.writeBytes (Memory.writeBytes m a vs) (a + vs.length) ws := by
  induction vs generalizing m a with
  | nil => rfl
  | cons v vs ih =>
    simp only [List.cons_append, Memory.writeBytes, ih, List.length_cons]
    rw [show a + 1 + vs.length = a + (vs.length + 1) by omega]

/-- The memory after reset is in canonical form. -/
theorem reset_memory_wf : Memory.wf State.reset.inMem ∧ Memory.wf State.reset.outMem :=
  ⟨Memory.wf_nil, Memory.wf_nil⟩

end Sys2Proof.Machine
end

