-- ==== Sys2Proof/Laws/State.lean ====
section
/-! SUPPORT. One lemma per field of the state for each named update of it, true by rfl. -/

namespace Sys2Proof.Machine

/-! `State.raise` -/

@[simp] theorem raise_px (e : ErrorKind) (s : State) : (s.raise e).px = s.px := rfl
@[simp] theorem raise_cache (e : ErrorKind) (s : State) : (s.raise e).cache = s.cache := rfl
@[simp] theorem raise_pc (e : ErrorKind) (s : State) : (s.raise e).pc = s.pc := rfl
@[simp] theorem raise_outCursor (e : ErrorKind) (s : State) : (s.raise e).outCursor = s.outCursor := rfl
@[simp] theorem raise_ch (e : ErrorKind) (s : State) : (s.raise e).ch = s.ch := rfl
@[simp] theorem raise_decodedSize (e : ErrorKind) (s : State) : (s.raise e).decodedSize = s.decodedSize := rfl
@[simp] theorem raise_runLeft (e : ErrorKind) (s : State) : (s.raise e).runLeft = s.runLeft := rfl
@[simp] theorem raise_phase (e : ErrorKind) (s : State) : (s.raise e).phase = .idle := rfl
@[simp] theorem raise_cmd (e : ErrorKind) (s : State) : (s.raise e).cmd = s.cmd := rfl
@[simp] theorem raise_done (e : ErrorKind) (s : State) : (s.raise e).done = s.done := rfl
@[simp] theorem raise_err (e : ErrorKind) (s : State) : (s.raise e).err = true := rfl
@[simp] theorem raise_code (e : ErrorKind) (s : State) : (s.raise e).code = e.code := rfl
@[simp] theorem raise_inLen (e : ErrorKind) (s : State) : (s.raise e).inLen = s.inLen := rfl
@[simp] theorem raise_outLen (e : ErrorKind) (s : State) : (s.raise e).outLen = s.outLen := rfl
@[simp] theorem raise_start (e : ErrorKind) (s : State) : (s.raise e).start = s.start := rfl
@[simp] theorem raise_width (e : ErrorKind) (s : State) : (s.raise e).width = s.width := rfl
@[simp] theorem raise_height (e : ErrorKind) (s : State) : (s.raise e).height = s.height := rfl
@[simp] theorem raise_mode (e : ErrorKind) (s : State) : (s.raise e).mode = s.mode := rfl
@[simp] theorem raise_inMem (e : ErrorKind) (s : State) : (s.raise e).inMem = s.inMem := rfl
@[simp] theorem raise_outMem (e : ErrorKind) (s : State) : (s.raise e).outMem = s.outMem := rfl
@[simp] theorem raise_params (e : ErrorKind) (s : State) : (s.raise e).params = s.params := rfl
@[simp] theorem raise_acquired (e : ErrorKind) (s : State) : (s.raise e).acquired = s.acquired := rfl
@[simp] theorem raise_moves (e : ErrorKind) (s : State) : (s.raise e).moves = s.moves := rfl
@[simp] theorem raise_hostData (e : ErrorKind) (s : State) : (s.raise e).hostData = s.hostData := rfl
@[simp] theorem raise_draws (e : ErrorKind) (s : State) : (s.raise e).draws = s.draws := rfl

/-! `State.finish` -/

@[simp] theorem finish_px (s : State) : (s.finish).px = s.px := rfl
@[simp] theorem finish_cache (s : State) : (s.finish).cache = s.cache := rfl
@[simp] theorem finish_pc (s : State) : (s.finish).pc = s.pc := rfl
@[simp] theorem finish_outCursor (s : State) : (s.finish).outCursor = s.outCursor := rfl
@[simp] theorem finish_ch (s : State) : (s.finish).ch = s.ch := rfl
@[simp] theorem finish_decodedSize (s : State) : (s.finish).decodedSize = s.decodedSize := rfl
@[simp] theorem finish_runLeft (s : State) : (s.finish).runLeft = s.runLeft := rfl
@[simp] theorem finish_phase (s : State) : (s.finish).phase = .idle := rfl
@[simp] theorem finish_cmd (s : State) : (s.finish).cmd = s.cmd := rfl
@[simp] theorem finish_done (s : State) : (s.finish).done = true := rfl
@[simp] theorem finish_err (s : State) : (s.finish).err = s.err := rfl
@[simp] theorem finish_code (s : State) : (s.finish).code = s.code := rfl
@[simp] theorem finish_inLen (s : State) : (s.finish).inLen = s.inLen := rfl
@[simp] theorem finish_outLen (s : State) : (s.finish).outLen = s.outLen := rfl
@[simp] theorem finish_start (s : State) : (s.finish).start = s.start := rfl
@[simp] theorem finish_width (s : State) : (s.finish).width = s.width := rfl
@[simp] theorem finish_height (s : State) : (s.finish).height = s.height := rfl
@[simp] theorem finish_mode (s : State) : (s.finish).mode = s.mode := rfl
@[simp] theorem finish_inMem (s : State) : (s.finish).inMem = s.inMem := rfl
@[simp] theorem finish_outMem (s : State) : (s.finish).outMem = s.outMem := rfl
@[simp] theorem finish_params (s : State) : (s.finish).params = s.params := rfl
@[simp] theorem finish_acquired (s : State) : (s.finish).acquired = s.acquired := rfl
@[simp] theorem finish_moves (s : State) : (s.finish).moves = s.moves := rfl
@[simp] theorem finish_hostData (s : State) : (s.finish).hostData = s.hostData := rfl
@[simp] theorem finish_draws (s : State) : (s.finish).draws = s.draws := rfl

/-! `State.beginCommand` -/

@[simp] theorem beginCommand_px (c : Command) (s : State) : (s.beginCommand c).px = s.px := rfl
@[simp] theorem beginCommand_cache (c : Command) (s : State) : (s.beginCommand c).cache = s.cache := rfl
@[simp] theorem beginCommand_pc (c : Command) (s : State) : (s.beginCommand c).pc = s.pc := rfl
@[simp] theorem beginCommand_outCursor (c : Command) (s : State) : (s.beginCommand c).outCursor = s.outCursor := rfl
@[simp] theorem beginCommand_ch (c : Command) (s : State) : (s.beginCommand c).ch = s.ch := rfl
@[simp] theorem beginCommand_decodedSize (c : Command) (s : State) : (s.beginCommand c).decodedSize = s.decodedSize := rfl
@[simp] theorem beginCommand_runLeft (c : Command) (s : State) : (s.beginCommand c).runLeft = s.runLeft := rfl
@[simp] theorem beginCommand_phase (c : Command) (s : State) : (s.beginCommand c).phase = s.phase := rfl
@[simp] theorem beginCommand_cmd (c : Command) (s : State) : (s.beginCommand c).cmd = c := rfl
@[simp] theorem beginCommand_done (c : Command) (s : State) : (s.beginCommand c).done = false := rfl
@[simp] theorem beginCommand_err (c : Command) (s : State) : (s.beginCommand c).err = false := rfl
@[simp] theorem beginCommand_code (c : Command) (s : State) : (s.beginCommand c).code = 0 := rfl
@[simp] theorem beginCommand_inLen (c : Command) (s : State) : (s.beginCommand c).inLen = s.inLen := rfl
@[simp] theorem beginCommand_outLen (c : Command) (s : State) : (s.beginCommand c).outLen = s.outLen := rfl
@[simp] theorem beginCommand_start (c : Command) (s : State) : (s.beginCommand c).start = s.start := rfl
@[simp] theorem beginCommand_width (c : Command) (s : State) : (s.beginCommand c).width = s.width := rfl
@[simp] theorem beginCommand_height (c : Command) (s : State) : (s.beginCommand c).height = s.height := rfl
@[simp] theorem beginCommand_mode (c : Command) (s : State) : (s.beginCommand c).mode = s.mode := rfl
@[simp] theorem beginCommand_inMem (c : Command) (s : State) : (s.beginCommand c).inMem = s.inMem := rfl
@[simp] theorem beginCommand_outMem (c : Command) (s : State) : (s.beginCommand c).outMem = s.outMem := rfl
@[simp] theorem beginCommand_params (c : Command) (s : State) : (s.beginCommand c).params = s.params := rfl
@[simp] theorem beginCommand_acquired (c : Command) (s : State) : (s.beginCommand c).acquired = false := rfl
@[simp] theorem beginCommand_moves (c : Command) (s : State) : (s.beginCommand c).moves = s.moves := rfl
@[simp] theorem beginCommand_hostData (c : Command) (s : State) : (s.beginCommand c).hostData = s.hostData := rfl
@[simp] theorem beginCommand_draws (c : Command) (s : State) : (s.beginCommand c).draws = s.draws := rfl

/-! `State.writeBack` -/

@[simp] theorem writeBack_px (s : State) : (s.writeBack).px = s.px := rfl
@[simp] theorem writeBack_cache (s : State) : (s.writeBack).cache = s.cache.set (s.params.hash s.px).toNat s.px := rfl
@[simp] theorem writeBack_pc (s : State) : (s.writeBack).pc = s.pc := rfl
@[simp] theorem writeBack_outCursor (s : State) : (s.writeBack).outCursor = s.outCursor := rfl
@[simp] theorem writeBack_ch (s : State) : (s.writeBack).ch = s.ch := rfl
@[simp] theorem writeBack_decodedSize (s : State) : (s.writeBack).decodedSize = s.decodedSize := rfl
@[simp] theorem writeBack_runLeft (s : State) : (s.writeBack).runLeft = s.runLeft := rfl
@[simp] theorem writeBack_phase (s : State) : (s.writeBack).phase = s.phase := rfl
@[simp] theorem writeBack_cmd (s : State) : (s.writeBack).cmd = s.cmd := rfl
@[simp] theorem writeBack_done (s : State) : (s.writeBack).done = s.done := rfl
@[simp] theorem writeBack_err (s : State) : (s.writeBack).err = s.err := rfl
@[simp] theorem writeBack_code (s : State) : (s.writeBack).code = s.code := rfl
@[simp] theorem writeBack_inLen (s : State) : (s.writeBack).inLen = s.inLen := rfl
@[simp] theorem writeBack_outLen (s : State) : (s.writeBack).outLen = s.outLen := rfl
@[simp] theorem writeBack_start (s : State) : (s.writeBack).start = s.start := rfl
@[simp] theorem writeBack_width (s : State) : (s.writeBack).width = s.width := rfl
@[simp] theorem writeBack_height (s : State) : (s.writeBack).height = s.height := rfl
@[simp] theorem writeBack_mode (s : State) : (s.writeBack).mode = s.mode := rfl
@[simp] theorem writeBack_inMem (s : State) : (s.writeBack).inMem = s.inMem := rfl
@[simp] theorem writeBack_outMem (s : State) : (s.writeBack).outMem = s.outMem := rfl
@[simp] theorem writeBack_params (s : State) : (s.writeBack).params = s.params := rfl
@[simp] theorem writeBack_acquired (s : State) : (s.writeBack).acquired = s.acquired := rfl
@[simp] theorem writeBack_moves (s : State) : (s.writeBack).moves = s.moves := rfl
@[simp] theorem writeBack_hostData (s : State) : (s.writeBack).hostData = s.hostData := rfl
@[simp] theorem writeBack_draws (s : State) : (s.writeBack).draws = s.draws := rfl

/-! `State.initDecode` -/

@[simp] theorem initDecode_px (s : State) : (s.initDecode).px = Pixel.opaqueBlack := rfl
@[simp] theorem initDecode_cache (s : State) : (s.initDecode).cache = Vector.replicate 64 Pixel.transparentBlack := rfl
@[simp] theorem initDecode_pc (s : State) : (s.initDecode).pc = s.pc := rfl
@[simp] theorem initDecode_outCursor (s : State) : (s.initDecode).outCursor = s.outCursor := rfl
@[simp] theorem initDecode_ch (s : State) : (s.initDecode).ch = s.ch := rfl
@[simp] theorem initDecode_decodedSize (s : State) : (s.initDecode).decodedSize = s.decodedSize := rfl
@[simp] theorem initDecode_runLeft (s : State) : (s.initDecode).runLeft = s.runLeft := rfl
@[simp] theorem initDecode_phase (s : State) : (s.initDecode).phase = .loop := rfl
@[simp] theorem initDecode_cmd (s : State) : (s.initDecode).cmd = s.cmd := rfl
@[simp] theorem initDecode_done (s : State) : (s.initDecode).done = s.done := rfl
@[simp] theorem initDecode_err (s : State) : (s.initDecode).err = s.err := rfl
@[simp] theorem initDecode_code (s : State) : (s.initDecode).code = s.code := rfl
@[simp] theorem initDecode_inLen (s : State) : (s.initDecode).inLen = s.inLen := rfl
@[simp] theorem initDecode_outLen (s : State) : (s.initDecode).outLen = s.outLen := rfl
@[simp] theorem initDecode_start (s : State) : (s.initDecode).start = s.start := rfl
@[simp] theorem initDecode_width (s : State) : (s.initDecode).width = s.width := rfl
@[simp] theorem initDecode_height (s : State) : (s.initDecode).height = s.height := rfl
@[simp] theorem initDecode_mode (s : State) : (s.initDecode).mode = s.mode := rfl
@[simp] theorem initDecode_inMem (s : State) : (s.initDecode).inMem = s.inMem := rfl
@[simp] theorem initDecode_outMem (s : State) : (s.initDecode).outMem = s.outMem := rfl
@[simp] theorem initDecode_params (s : State) : (s.initDecode).params = s.params := rfl
@[simp] theorem initDecode_acquired (s : State) : (s.initDecode).acquired = s.acquired := rfl
@[simp] theorem initDecode_moves (s : State) : (s.initDecode).moves = s.moves := rfl
@[simp] theorem initDecode_hostData (s : State) : (s.initDecode).hostData = s.hostData := rfl
@[simp] theorem initDecode_draws (s : State) : (s.initDecode).draws = s.draws := rfl

/-! `State.loadDecode` -/

@[simp] theorem loadDecode_px (p : Word32) (s : State) : (s.loadDecode p).px = s.px := rfl
@[simp] theorem loadDecode_cache (p : Word32) (s : State) : (s.loadDecode p).cache = s.cache := rfl
@[simp] theorem loadDecode_pc (p : Word32) (s : State) : (s.loadDecode p).pc = p := rfl
@[simp] theorem loadDecode_outCursor (p : Word32) (s : State) : (s.loadDecode p).outCursor = 0 := rfl
@[simp] theorem loadDecode_ch (p : Word32) (s : State) : (s.loadDecode p).ch = channelsOfMode s.mode := rfl
@[simp] theorem loadDecode_decodedSize (p : Word32) (s : State) : (s.loadDecode p).decodedSize = s.width.toNat * s.height.toNat * (channelsOfMode s.mode).count := rfl
@[simp] theorem loadDecode_runLeft (p : Word32) (s : State) : (s.loadDecode p).runLeft = 0 := rfl
@[simp] theorem loadDecode_phase (p : Word32) (s : State) : (s.loadDecode p).phase = s.phase := rfl
@[simp] theorem loadDecode_cmd (p : Word32) (s : State) : (s.loadDecode p).cmd = s.cmd := rfl
@[simp] theorem loadDecode_done (p : Word32) (s : State) : (s.loadDecode p).done = s.done := rfl
@[simp] theorem loadDecode_err (p : Word32) (s : State) : (s.loadDecode p).err = s.err := rfl
@[simp] theorem loadDecode_code (p : Word32) (s : State) : (s.loadDecode p).code = s.code := rfl
@[simp] theorem loadDecode_inLen (p : Word32) (s : State) : (s.loadDecode p).inLen = s.inLen := rfl
@[simp] theorem loadDecode_outLen (p : Word32) (s : State) : (s.loadDecode p).outLen = s.outLen := rfl
@[simp] theorem loadDecode_start (p : Word32) (s : State) : (s.loadDecode p).start = s.start := rfl
@[simp] theorem loadDecode_width (p : Word32) (s : State) : (s.loadDecode p).width = s.width := rfl
@[simp] theorem loadDecode_height (p : Word32) (s : State) : (s.loadDecode p).height = s.height := rfl
@[simp] theorem loadDecode_mode (p : Word32) (s : State) : (s.loadDecode p).mode = s.mode := rfl
@[simp] theorem loadDecode_inMem (p : Word32) (s : State) : (s.loadDecode p).inMem = s.inMem := rfl
@[simp] theorem loadDecode_outMem (p : Word32) (s : State) : (s.loadDecode p).outMem = s.outMem := rfl
@[simp] theorem loadDecode_params (p : Word32) (s : State) : (s.loadDecode p).params = s.params := rfl
@[simp] theorem loadDecode_acquired (p : Word32) (s : State) : (s.loadDecode p).acquired = s.acquired := rfl
@[simp] theorem loadDecode_moves (p : Word32) (s : State) : (s.loadDecode p).moves = s.moves := rfl
@[simp] theorem loadDecode_hostData (p : Word32) (s : State) : (s.loadDecode p).hostData = s.hostData := rfl
@[simp] theorem loadDecode_draws (p : Word32) (s : State) : (s.loadDecode p).draws = s.draws := rfl

/-! `State.setDescriptor` -/

@[simp] theorem setDescriptor_px (w h : Word32) (mode : BitVec 2) (s : State) : (s.setDescriptor w h mode).px = s.px := rfl
@[simp] theorem setDescriptor_cache (w h : Word32) (mode : BitVec 2) (s : State) : (s.setDescriptor w h mode).cache = s.cache := rfl
@[simp] theorem setDescriptor_pc (w h : Word32) (mode : BitVec 2) (s : State) : (s.setDescriptor w h mode).pc = s.pc := rfl
@[simp] theorem setDescriptor_outCursor (w h : Word32) (mode : BitVec 2) (s : State) : (s.setDescriptor w h mode).outCursor = s.outCursor := rfl
@[simp] theorem setDescriptor_ch (w h : Word32) (mode : BitVec 2) (s : State) : (s.setDescriptor w h mode).ch = s.ch := rfl
@[simp] theorem setDescriptor_decodedSize (w h : Word32) (mode : BitVec 2) (s : State) : (s.setDescriptor w h mode).decodedSize = s.decodedSize := rfl
@[simp] theorem setDescriptor_runLeft (w h : Word32) (mode : BitVec 2) (s : State) : (s.setDescriptor w h mode).runLeft = s.runLeft := rfl
@[simp] theorem setDescriptor_phase (w h : Word32) (mode : BitVec 2) (s : State) : (s.setDescriptor w h mode).phase = s.phase := rfl
@[simp] theorem setDescriptor_cmd (w h : Word32) (mode : BitVec 2) (s : State) : (s.setDescriptor w h mode).cmd = s.cmd := rfl
@[simp] theorem setDescriptor_done (w h : Word32) (mode : BitVec 2) (s : State) : (s.setDescriptor w h mode).done = s.done := rfl
@[simp] theorem setDescriptor_err (w h : Word32) (mode : BitVec 2) (s : State) : (s.setDescriptor w h mode).err = s.err := rfl
@[simp] theorem setDescriptor_code (w h : Word32) (mode : BitVec 2) (s : State) : (s.setDescriptor w h mode).code = s.code := rfl
@[simp] theorem setDescriptor_inLen (w h : Word32) (mode : BitVec 2) (s : State) : (s.setDescriptor w h mode).inLen = s.inLen := rfl
@[simp] theorem setDescriptor_outLen (w h : Word32) (mode : BitVec 2) (s : State) : (s.setDescriptor w h mode).outLen = s.outLen := rfl
@[simp] theorem setDescriptor_start (w h : Word32) (mode : BitVec 2) (s : State) : (s.setDescriptor w h mode).start = s.start := rfl
@[simp] theorem setDescriptor_width (w h : Word32) (mode : BitVec 2) (s : State) : (s.setDescriptor w h mode).width = w := rfl
@[simp] theorem setDescriptor_height (w h : Word32) (mode : BitVec 2) (s : State) : (s.setDescriptor w h mode).height = h := rfl
@[simp] theorem setDescriptor_mode (w h : Word32) (mode : BitVec 2) (s : State) : (s.setDescriptor w h mode).mode = mode := rfl
@[simp] theorem setDescriptor_inMem (w h : Word32) (mode : BitVec 2) (s : State) : (s.setDescriptor w h mode).inMem = s.inMem := rfl
@[simp] theorem setDescriptor_outMem (w h : Word32) (mode : BitVec 2) (s : State) : (s.setDescriptor w h mode).outMem = s.outMem := rfl
@[simp] theorem setDescriptor_params (w h : Word32) (mode : BitVec 2) (s : State) : (s.setDescriptor w h mode).params = s.params := rfl
@[simp] theorem setDescriptor_acquired (w h : Word32) (mode : BitVec 2) (s : State) : (s.setDescriptor w h mode).acquired = s.acquired := rfl
@[simp] theorem setDescriptor_moves (w h : Word32) (mode : BitVec 2) (s : State) : (s.setDescriptor w h mode).moves = s.moves := rfl
@[simp] theorem setDescriptor_hostData (w h : Word32) (mode : BitVec 2) (s : State) : (s.setDescriptor w h mode).hostData = s.hostData := rfl
@[simp] theorem setDescriptor_draws (w h : Word32) (mode : BitVec 2) (s : State) : (s.setDescriptor w h mode).draws = s.draws := rfl

/-! `State.assertReset` keeps the spaces, the parameters and the model's own fields; the rest is `State.reset`'s. -/

@[simp] theorem assertReset_px (s : State) : s.assertReset.px = State.reset.px := rfl
@[simp] theorem assertReset_cache (s : State) : s.assertReset.cache = State.reset.cache := rfl
@[simp] theorem assertReset_pc (s : State) : s.assertReset.pc = State.reset.pc := rfl
@[simp] theorem assertReset_outCursor (s : State) : s.assertReset.outCursor = State.reset.outCursor := rfl
@[simp] theorem assertReset_ch (s : State) : s.assertReset.ch = State.reset.ch := rfl
@[simp] theorem assertReset_decodedSize (s : State) : s.assertReset.decodedSize = State.reset.decodedSize := rfl
@[simp] theorem assertReset_runLeft (s : State) : s.assertReset.runLeft = State.reset.runLeft := rfl
@[simp] theorem assertReset_phase (s : State) : s.assertReset.phase = State.reset.phase := rfl
@[simp] theorem assertReset_cmd (s : State) : s.assertReset.cmd = State.reset.cmd := rfl
@[simp] theorem assertReset_done (s : State) : s.assertReset.done = State.reset.done := rfl
@[simp] theorem assertReset_err (s : State) : s.assertReset.err = State.reset.err := rfl
@[simp] theorem assertReset_code (s : State) : s.assertReset.code = State.reset.code := rfl
@[simp] theorem assertReset_inLen (s : State) : s.assertReset.inLen = State.reset.inLen := rfl
@[simp] theorem assertReset_outLen (s : State) : s.assertReset.outLen = State.reset.outLen := rfl
@[simp] theorem assertReset_start (s : State) : s.assertReset.start = State.reset.start := rfl
@[simp] theorem assertReset_width (s : State) : s.assertReset.width = State.reset.width := rfl
@[simp] theorem assertReset_height (s : State) : s.assertReset.height = State.reset.height := rfl
@[simp] theorem assertReset_mode (s : State) : s.assertReset.mode = State.reset.mode := rfl
@[simp] theorem assertReset_inMem (s : State) : s.assertReset.inMem = s.inMem := rfl
@[simp] theorem assertReset_outMem (s : State) : s.assertReset.outMem = s.outMem := rfl
@[simp] theorem assertReset_params (s : State) : s.assertReset.params = s.params := rfl
@[simp] theorem assertReset_acquired (s : State) : s.assertReset.acquired = false := rfl
@[simp] theorem assertReset_moves (s : State) : s.assertReset.moves = s.moves := rfl
@[simp] theorem assertReset_hostData (s : State) : s.assertReset.hostData = s.hostData := rfl
@[simp] theorem assertReset_draws (s : State) : s.assertReset.draws = s.draws := rfl

/-! What depends on one or two fields only. -/

@[simp] theorem raise_busy (e : ErrorKind) (s : State) : (s.raise e).busy = false := rfl
@[simp] theorem finish_busy (s : State) : s.finish.busy = false := rfl
@[simp] theorem beginCommand_busy (c : Command) (s : State) : (s.beginCommand c).busy = s.busy := rfl
@[simp] theorem assertReset_busy (s : State) : s.assertReset.busy = false := rfl

theorem busy_iff (s : State) : s.busy = true ↔ s.phase ≠ .idle := by simp [State.busy]

theorem not_busy_iff (s : State) : s.busy = false ↔ s.phase = .idle := by simp [State.busy]

end Sys2Proof.Machine
end

