-- ==== Sys2Proof/Laws/Ops.lean ====
section
/-! SUPPORT. One lemma for each shared operation, saying everything it can do; proofs cite these and do not unfold the
operations. -/

namespace Sys2Proof.Machine

@[simp] theorem outputBytes_length (ch : Channels) (q : Pixel) : (outputBytes ch q).length = ch.count := by
  cases ch <;> rfl

theorem Channels.count_pos (ch : Channels) : 0 < ch.count := by cases ch <;> decide

theorem Channels.count_ge (ch : Channels) : 3 ≤ ch.count := by cases ch <;> decide

theorem Channels.count_le (ch : Channels) : ch.count ≤ 4 := by cases ch <;> decide

theorem tokenLength_cases (b0 : Byte) :
    tokenLength b0 = 1 ∨ tokenLength b0 = 2 ∨ tokenLength b0 = 4 ∨ tokenLength b0 = 5 := by
  unfold tokenLength
  cases kind b0 <;> simp [TokenKind.length]

/-! Reading IN. -/

theorem memRead_inside {s : State} {a n : Nat} (h : a + n ≤ s.inLen.toNat) :
    s.memRead a n = some ((List.range n).map fun k => Memory.read s.inMem (a + k)) := by simp [State.memRead, h]

theorem memRead_outside {s : State} {a n : Nat} (h : s.inLen.toNat < a + n) : s.memRead a n = none := by
  simp [State.memRead, h]

/-- A read of bytes that stand in IN gives them. -/
theorem memRead_holds {s : State} {a : Nat} {bs : List Byte} (hb : ∀ k (h : k < bs.length), Memory.read s.inMem (a + k) = bs[k])
    (h : a + bs.length ≤ s.inLen.toNat) : s.memRead a bs.length = some bs := by
  rw [memRead_inside h]
  refine congrArg some (List.ext_getElem (by simp) fun k h1 h2 => ?_)
  simp [hb k h2]

/-! Writing OUT. -/

theorem memWrite_inside {s : State} {a : Nat} {vs : List Byte} (h : a + vs.length ≤ s.outLen.toNat) :
    s.memWrite a vs = some { s with outMem := Memory.writeBytes s.outMem a vs } := by simp [State.memWrite, h]

/-- The state after the running pixel is written. -/
def State.emitted (s : State) : State :=
  { s with
    outMem := Memory.writeBytes s.outMem s.outCursor.toNat (outputBytes s.ch s.px)
    outCursor := s.outCursor + BitVec.ofNat 32 s.ch.count }

/-! `State.emitted` -/

@[simp] theorem emitted_px (s : State) : (s.emitted).px = s.px := rfl
@[simp] theorem emitted_cache (s : State) : (s.emitted).cache = s.cache := rfl
@[simp] theorem emitted_pc (s : State) : (s.emitted).pc = s.pc := rfl
@[simp] theorem emitted_outCursor (s : State) : (s.emitted).outCursor = s.outCursor + BitVec.ofNat 32 s.ch.count := rfl
@[simp] theorem emitted_ch (s : State) : (s.emitted).ch = s.ch := rfl
@[simp] theorem emitted_decodedSize (s : State) : (s.emitted).decodedSize = s.decodedSize := rfl
@[simp] theorem emitted_runLeft (s : State) : (s.emitted).runLeft = s.runLeft := rfl
@[simp] theorem emitted_phase (s : State) : (s.emitted).phase = s.phase := rfl
@[simp] theorem emitted_cmd (s : State) : (s.emitted).cmd = s.cmd := rfl
@[simp] theorem emitted_done (s : State) : (s.emitted).done = s.done := rfl
@[simp] theorem emitted_err (s : State) : (s.emitted).err = s.err := rfl
@[simp] theorem emitted_code (s : State) : (s.emitted).code = s.code := rfl
@[simp] theorem emitted_inLen (s : State) : (s.emitted).inLen = s.inLen := rfl
@[simp] theorem emitted_outLen (s : State) : (s.emitted).outLen = s.outLen := rfl
@[simp] theorem emitted_start (s : State) : (s.emitted).start = s.start := rfl
@[simp] theorem emitted_width (s : State) : (s.emitted).width = s.width := rfl
@[simp] theorem emitted_height (s : State) : (s.emitted).height = s.height := rfl
@[simp] theorem emitted_mode (s : State) : (s.emitted).mode = s.mode := rfl
@[simp] theorem emitted_inMem (s : State) : (s.emitted).inMem = s.inMem := rfl
@[simp] theorem emitted_outMem (s : State) : (s.emitted).outMem = Memory.writeBytes s.outMem s.outCursor.toNat (outputBytes s.ch s.px) := rfl
@[simp] theorem emitted_params (s : State) : (s.emitted).params = s.params := rfl
@[simp] theorem emitted_acquired (s : State) : (s.emitted).acquired = s.acquired := rfl
@[simp] theorem emitted_moves (s : State) : (s.emitted).moves = s.moves := rfl
@[simp] theorem emitted_hostData (s : State) : (s.emitted).hostData = s.hostData := rfl
@[simp] theorem emitted_draws (s : State) : (s.emitted).draws = s.draws := rfl

/-- Writing the running pixel succeeds exactly where OUT has room for it. -/
theorem emitPixel_eq (s : State) :
    s.emitPixel = if s.outCursor.toNat + s.ch.count ≤ s.outLen.toNat then some s.emitted else none := by
  unfold State.emitPixel State.memWrite
  simp only [outputBytes_length]
  split <;> rfl

/-- Where there is room, the pixel cursor advances without wrapping. -/
theorem outCursor_advance {s : State} (h : s.outCursor.toNat + s.ch.count ≤ s.outLen.toNat) :
    (s.outCursor + BitVec.ofNat 32 s.ch.count).toNat = s.outCursor.toNat + s.ch.count := by
  have h1 := s.outLen.isLt
  have h2 := s.ch.count_le
  rw [BitVec.toNat_add, BitVec.toNat_ofNat]
  omega

/-! The non-run tokens. -/

/-- The state after a non-run token of `len` bytes that gives the pixel `q`. -/
def State.tokenDone (len : Nat) (q : Pixel) (s : State) : State :=
  { ({ s with px := s.settleAlpha q } : State).writeBack.emitted with
    pc := s.pc + BitVec.ofNat 32 len, phase := .loop }

/-! `State.tokenDone` -/

@[simp] theorem tokenDone_px (len : Nat) (q : Pixel) (s : State) : (s.tokenDone len q).px = s.settleAlpha q := rfl
@[simp] theorem tokenDone_cache (len : Nat) (q : Pixel) (s : State) : (s.tokenDone len q).cache = s.cache.set (s.params.hash (s.settleAlpha q)).toNat (s.settleAlpha q) := rfl
@[simp] theorem tokenDone_pc (len : Nat) (q : Pixel) (s : State) : (s.tokenDone len q).pc = s.pc + BitVec.ofNat 32 len := rfl
@[simp] theorem tokenDone_outCursor (len : Nat) (q : Pixel) (s : State) : (s.tokenDone len q).outCursor = s.outCursor + BitVec.ofNat 32 s.ch.count := rfl
@[simp] theorem tokenDone_ch (len : Nat) (q : Pixel) (s : State) : (s.tokenDone len q).ch = s.ch := rfl
@[simp] theorem tokenDone_decodedSize (len : Nat) (q : Pixel) (s : State) : (s.tokenDone len q).decodedSize = s.decodedSize := rfl
@[simp] theorem tokenDone_runLeft (len : Nat) (q : Pixel) (s : State) : (s.tokenDone len q).runLeft = s.runLeft := rfl
@[simp] theorem tokenDone_phase (len : Nat) (q : Pixel) (s : State) : (s.tokenDone len q).phase = .loop := rfl
@[simp] theorem tokenDone_cmd (len : Nat) (q : Pixel) (s : State) : (s.tokenDone len q).cmd = s.cmd := rfl
@[simp] theorem tokenDone_done (len : Nat) (q : Pixel) (s : State) : (s.tokenDone len q).done = s.done := rfl
@[simp] theorem tokenDone_err (len : Nat) (q : Pixel) (s : State) : (s.tokenDone len q).err = s.err := rfl
@[simp] theorem tokenDone_code (len : Nat) (q : Pixel) (s : State) : (s.tokenDone len q).code = s.code := rfl
@[simp] theorem tokenDone_inLen (len : Nat) (q : Pixel) (s : State) : (s.tokenDone len q).inLen = s.inLen := rfl
@[simp] theorem tokenDone_outLen (len : Nat) (q : Pixel) (s : State) : (s.tokenDone len q).outLen = s.outLen := rfl
@[simp] theorem tokenDone_start (len : Nat) (q : Pixel) (s : State) : (s.tokenDone len q).start = s.start := rfl
@[simp] theorem tokenDone_width (len : Nat) (q : Pixel) (s : State) : (s.tokenDone len q).width = s.width := rfl
@[simp] theorem tokenDone_height (len : Nat) (q : Pixel) (s : State) : (s.tokenDone len q).height = s.height := rfl
@[simp] theorem tokenDone_mode (len : Nat) (q : Pixel) (s : State) : (s.tokenDone len q).mode = s.mode := rfl
@[simp] theorem tokenDone_inMem (len : Nat) (q : Pixel) (s : State) : (s.tokenDone len q).inMem = s.inMem := rfl
@[simp] theorem tokenDone_outMem (len : Nat) (q : Pixel) (s : State) : (s.tokenDone len q).outMem = Memory.writeBytes s.outMem s.outCursor.toNat (outputBytes s.ch (s.settleAlpha q)) := rfl
@[simp] theorem tokenDone_params (len : Nat) (q : Pixel) (s : State) : (s.tokenDone len q).params = s.params := rfl
@[simp] theorem tokenDone_acquired (len : Nat) (q : Pixel) (s : State) : (s.tokenDone len q).acquired = s.acquired := rfl
@[simp] theorem tokenDone_moves (len : Nat) (q : Pixel) (s : State) : (s.tokenDone len q).moves = s.moves := rfl
@[simp] theorem tokenDone_hostData (len : Nat) (q : Pixel) (s : State) : (s.tokenDone len q).hostData = s.hostData := rfl
@[simp] theorem tokenDone_draws (len : Nat) (q : Pixel) (s : State) : (s.tokenDone len q).draws = s.draws := rfl

/-- A non-run token completes exactly where OUT has room for its pixel. -/
theorem completeToken_eq (len : Nat) (q : Pixel) (s : State) :
    completeToken len q s =
      if s.outCursor.toNat + s.ch.count ≤ s.outLen.toNat then .next (s.tokenDone len q)
      else .fault .writePastOutput := by
  unfold completeToken
  rw [emitPixel_eq]
  by_cases h : s.outCursor.toNat + s.ch.count ≤ s.outLen.toNat
  · rw [if_pos h, if_pos (by simpa using h)]
    rfl
  · rw [if_neg h, if_neg (by simpa using h)]

/-- The length of a non-run token and the pixel it gives; none for a run and for a command. -/
def pixelOf (s : State) : Instr → Option (Nat × Pixel)
  | .rgb r g b => some (4, setRgb s.px r g b)
  | .rgba r g b a => some (5, ⟨r, g, b, a⟩)
  | .index i => some (1, s.cacheAt i)
  | .diff dr dg db => some (1, addDeltas s.px (diffDelta dr) (diffDelta dg) (diffDelta db))
  | .luma dg drg dbg => some (2, addDeltas s.px (lumaCross dg drg) (lumaGreen dg) (lumaCross dg dbg))
  | .run _ | .parseHeader | .decode | .decodeWithDescriptor => none

/-- Every non-run token is `completeToken` of its pixel. -/
theorem exec_of_pixelOf {i : Instr} {s : State} {len : Nat} {q : Pixel} (h : pixelOf s i = some (len, q)) :
    exec i s = completeToken len q s := by
  cases i <;> simp_all [pixelOf, exec, execRgb, execRgba, execIndex, execDiff, execLuma]

/-! The cache. -/

/-- The write-back stores the running pixel at its hash. -/
theorem writeBack_cacheAt_same (s : State) : s.writeBack.cacheAt (s.params.hash s.px) = s.px := by
  simp [State.cacheAt]

/-- The write-back leaves every other entry alone. -/
theorem writeBack_cacheAt_other {s : State} {i : BitVec 6} (h : i ≠ s.params.hash s.px) :
    s.writeBack.cacheAt i = s.cacheAt i := by
  have hne : (s.params.hash s.px).toNat ≠ i.toNat := fun he => h (BitVec.eq_of_toNat_eq he.symm)
  simp [State.cacheAt, hne]

/-- The initialisation makes every entry transparent black. -/
theorem initDecode_cacheAt (s : State) (i : BitVec 6) : s.initDecode.cacheAt i = Pixel.transparentBlack := by
  simp [State.cacheAt]

/-- After a non-run token its pixel stands in the cache at its hash. -/
theorem tokenDone_cacheAt_same (len : Nat) (q : Pixel) (s : State) :
    (s.tokenDone len q).cacheAt (s.params.hash (s.settleAlpha q)) = s.settleAlpha q := by simp [State.cacheAt]

/-- After a non-run token every other entry is as before. -/
theorem tokenDone_cacheAt_other {len : Nat} {q : Pixel} {s : State} {i : BitVec 6}
    (h : i ≠ s.params.hash (s.settleAlpha q)) : (s.tokenDone len q).cacheAt i = s.cacheAt i := by
  have hne : (s.params.hash (s.settleAlpha q)).toNat ≠ i.toNat := fun he => h (BitVec.eq_of_toNat_eq he.symm)
  simp [State.cacheAt, hne]

/-- Settling the alpha of a settled pixel changes nothing, in any state with the same channels and parameters. -/
theorem settleAlpha_settled {s t : State} (q : Pixel) (hc : t.ch = s.ch) (hp : t.params = s.params) :
    t.settleAlpha (s.settleAlpha q) = s.settleAlpha q := by
  unfold State.settleAlpha
  rw [hc, hp]
  split <;> rfl

/-! Command starts and the decode entry. -/

/-- A command start is ignored while busy, refused where the buffers overlap, and else done in one step. -/
theorem launch_eq (c : Command) (body : State → State) (s : State) :
    launch c body s =
      if s.phase ≠ .idle then .next s
      else if s.buffersOverlap = true then .refused .overlappingBuffers
      else .next (body (s.beginCommand c)) := by
  unfold launch
  simp only [busy_iff]

/-- The decode entry ends at the zero exit, ends at the buffer check, or initialises. -/
theorem decodeEntry_cases (p : Word32) (s : State) :
    ((s.width = 0 ∨ s.height = 0) ∧ s.decodeEntry p = (s.loadDecode p).finish) ∨
    (¬(s.width = 0 ∨ s.height = 0) ∧ s.outLen.toNat < (s.loadDecode p).decodedSize ∧
      s.decodeEntry p = (s.loadDecode p).raise .outputIsTooSmall) ∨
    (¬(s.width = 0 ∨ s.height = 0) ∧ (s.loadDecode p).decodedSize ≤ s.outLen.toNat ∧
      s.decodeEntry p = (s.loadDecode p).initDecode) := by
  unfold State.decodeEntry State.enterLoop
  by_cases h1 : s.width = 0 ∨ s.height = 0
  · exact .inl ⟨h1, if_pos h1⟩
  · by_cases h2 : s.outLen.toNat < (s.loadDecode p).decodedSize
    · exact .inr (.inl ⟨h1, h2, by rw [if_neg (by simpa using h1), if_pos (by simpa using h2)]⟩)
    · exact .inr (.inr ⟨h1, by omega, by rw [if_neg (by simpa using h1), if_neg (by simpa using h2)]⟩)

/-! The header. -/

/-- The header's big-endian field of IN at an offset. -/
def State.inWord (s : State) (a : Nat) : Word32 :=
  bigEndian (Memory.read s.inMem a) (Memory.read s.inMem (a + 1)) (Memory.read s.inMem (a + 2))
    (Memory.read s.inMem (a + 3))

/-- The value of a big-endian field. -/
theorem bigEndian_toNat (a b c d : Byte) :
    (bigEndian a b c d).toNat = a.toNat * 2 ^ 24 + b.toNat * 2 ^ 16 + c.toNat * 2 ^ 8 + d.toNat := by
  have ha := a.isLt
  have hb := b.isLt
  have hc := c.isLt
  have hd := d.isLt
  unfold bigEndian
  rw [BitVec.toNat_append, ← Nat.shiftLeft_add_eq_or_of_lt hd, BitVec.toNat_append,
    ← Nat.shiftLeft_add_eq_or_of_lt hc, BitVec.toNat_append, ← Nat.shiftLeft_add_eq_or_of_lt hb]
  simp only [Nat.shiftLeft_eq]
  omega

/-- The header parse step is the length check and then the checks of the fields. -/
theorem headerParse_eq (s : State) :
    headerParse s =
      if s.inLen.toNat < 14 then .next (s.raise .dataTooSmall)
      else .next (s.checkHeader (s.inWord 0) (s.inWord 4) (s.inWord 8) (Memory.read s.inMem 12)
        (Memory.read s.inMem 13)) := by
  unfold headerParse headerLength
  split
  · rfl
  · rw [memRead_inside (by omega)]
    simp [List.range, List.range.loop, State.inWord]

/-! The decode loop. -/

/-- Past the guard the fetch reads exactly the token's bytes and runs the token, or finds IN shorter than the token
(which a legal `PAD_LEN` rules out). -/
theorem fetchToken_eq {s : State} (hg : s.pc.toNat < s.inLen.toNat) :
    fetchToken s =
      if s.inLen.toNat < s.pc.toNat + tokenLength (Memory.read s.inMem s.pc.toNat) then .next (s.raise .dataTooSmall)
      else
        runToken s ((List.range (tokenLength (Memory.read s.inMem s.pc.toNat))).map
          fun k => Memory.read s.inMem (s.pc.toNat + k)) := by
  unfold fetchToken
  rw [memRead_inside (by omega)]
  simp only [List.range, List.range.loop, List.map_cons, List.map_nil, Nat.add_zero]
  by_cases h : s.inLen.toNat < s.pc.toNat + tokenLength (Memory.read s.inMem s.pc.toNat)
  · rw [if_pos h, if_pos (by unfold State.bytesLeft; omega)]
  · rw [if_neg h, if_neg (by unfold State.bytesLeft; omega), memRead_inside (by omega)]
    rfl

/-- A step of the loop ends the command, fails the guard, or fetches. -/
theorem loopStep_cases (s : State) :
    (s.outCursor.toNat = s.decodedSize ∧ loopStep s = .next s.finish) ∨
    (s.outCursor.toNat ≠ s.decodedSize ∧ s.inLen.toNat ≤ s.pc.toNat + s.params.padLen ∧
      loopStep s = .next (s.raise .dataTooSmall)) ∨
    (s.outCursor.toNat ≠ s.decodedSize ∧ s.pc.toNat + s.params.padLen < s.inLen.toNat ∧
      loopStep s = fetchToken s) := by
  unfold loopStep
  by_cases h1 : s.outCursor.toNat = s.decodedSize
  · exact .inl ⟨h1, by simp [h1]⟩
  · by_cases h2 : s.bytesLeft ≤ s.params.padLen
    · exact .inr (.inl ⟨h1, by unfold State.bytesLeft at h2; omega, by rw [if_neg h1, if_pos h2]⟩)
    · exact .inr (.inr ⟨h1, by unfold State.bytesLeft at h2; omega, by rw [if_neg h1, if_neg h2]⟩)

/-- One repetition fails at the end of the image, writes the pixel, or would leave OUT. -/
theorem runRepetition_eq (s : State) :
    runRepetition s =
      if s.decodedSize < s.outCursor.toNat + s.ch.count then .next (s.raise .outputIsTooSmall)
      else if s.outCursor.toNat + s.ch.count ≤ s.outLen.toNat then
        .next { s.emitted with
          runLeft := s.runLeft - 1, phase := if s.runLeft - 1 = 0 then .loop else .run }
      else .fault .writePastOutput := by
  unfold runRepetition
  rw [emitPixel_eq]
  split
  · rfl
  · by_cases h : s.outCursor.toNat + s.ch.count ≤ s.outLen.toNat
    · rw [if_pos h, if_pos h]
      rfl
    · rw [if_neg h, if_neg h]

end Sys2Proof.Machine
end

