-- ==== Sys2Proof/Laws/Step.lean ====
section
/-! SUPPORT. What a step can do, said once: the turns of host and core, and the inversion of the core's step. -/

namespace Sys2Proof.Machine

/-- With no host move the core steps. -/
theorem step_core {s : State} (h : s.moves = []) : step s = coreStep s := by simp [step, nextMove, h]

/-- The oldest host move is taken before the core steps. -/
theorem step_host {s : State} {m : HostMove} {rest : List HostMove} (h : s.moves = m :: rest) :
    step s = hostStep m { s with moves := rest } := by simp [step, nextMove, h]

/-- The state after the run token. -/
def State.runStarted (l : BitVec 6) (s : State) : State :=
  { s with runLeft := runCount l, pc := s.pc + 1, phase := .run }

/-- The state after a repetition that fits. -/
def State.repeated (s : State) : State :=
  { s.emitted with runLeft := s.runLeft - 1, phase := if s.runLeft - 1 = 0 then .loop else .run }

/-- The bytes of a written pixel, channel by channel. -/
theorem read_writtenPixel {m : Memory} (hm : Memory.wf m) {o : Nat} {ch : Channels} (q : Pixel)
    (h : o + ch.count ≤ 2 ^ 32) :
    let m' := Memory.writeBytes m o (outputBytes ch q)
    Memory.read m' o = q.r ∧ Memory.read m' (o + 1) = q.g ∧ Memory.read m' (o + 2) = q.b ∧
      (ch = .four → Memory.read m' (o + 3) = q.a) := by
  have key := fun k (hk : k < (outputBytes ch q).length) =>
    Memory.read_writeBytes_inside hm (a := o) (vs := outputBytes ch q) (by simpa using h) hk
  cases ch
  · exact ⟨key 0 (by simp [Channels.count]), key 1 (by simp [Channels.count]), key 2 (by simp [Channels.count]), nofun⟩
  · exact ⟨key 0 (by simp [Channels.count]), key 1 (by simp [Channels.count]), key 2 (by simp [Channels.count]),
      fun _ => key 3 (by simp [Channels.count])⟩

/-- Everything the output of a pixel does to OUT and to the pixel cursor. -/
theorem pixelWritten {s t : State} {q : Pixel} (hw : Memory.wf s.outMem) (hr : s.roomForPixel)
    (hm : t.outMem = Memory.writeBytes s.outMem s.outCursor.toNat (outputBytes s.ch q))
    (hc : t.outCursor = s.outCursor + BitVec.ofNat 32 s.ch.count) : PixelWritten q s t := by
  have hl := s.outLen.isLt
  obtain ⟨h1, h2, h3, h4⟩ :=
    read_writtenPixel hw (o := s.outCursor.toNat) (ch := s.ch) q (by unfold State.roomForPixel at hr; omega)
  rw [← hm] at h1 h2 h3 h4
  exact ⟨h1, h2, h3, h4, fun a ha => hm ▸ Memory.read_writeBytes_other _ _ _ (by simpa using ha),
    hc ▸ outCursor_advance hr⟩

/-! `State.runStarted` -/

@[simp] theorem runStarted_px (l : BitVec 6) (s : State) : (s.runStarted l).px = s.px := rfl
@[simp] theorem runStarted_cache (l : BitVec 6) (s : State) : (s.runStarted l).cache = s.cache := rfl
@[simp] theorem runStarted_pc (l : BitVec 6) (s : State) : (s.runStarted l).pc = s.pc + 1 := rfl
@[simp] theorem runStarted_outCursor (l : BitVec 6) (s : State) : (s.runStarted l).outCursor = s.outCursor := rfl
@[simp] theorem runStarted_ch (l : BitVec 6) (s : State) : (s.runStarted l).ch = s.ch := rfl
@[simp] theorem runStarted_decodedSize (l : BitVec 6) (s : State) : (s.runStarted l).decodedSize = s.decodedSize := rfl
@[simp] theorem runStarted_runLeft (l : BitVec 6) (s : State) : (s.runStarted l).runLeft = runCount l := rfl
@[simp] theorem runStarted_phase (l : BitVec 6) (s : State) : (s.runStarted l).phase = .run := rfl
@[simp] theorem runStarted_cmd (l : BitVec 6) (s : State) : (s.runStarted l).cmd = s.cmd := rfl
@[simp] theorem runStarted_done (l : BitVec 6) (s : State) : (s.runStarted l).done = s.done := rfl
@[simp] theorem runStarted_err (l : BitVec 6) (s : State) : (s.runStarted l).err = s.err := rfl
@[simp] theorem runStarted_code (l : BitVec 6) (s : State) : (s.runStarted l).code = s.code := rfl
@[simp] theorem runStarted_inLen (l : BitVec 6) (s : State) : (s.runStarted l).inLen = s.inLen := rfl
@[simp] theorem runStarted_outLen (l : BitVec 6) (s : State) : (s.runStarted l).outLen = s.outLen := rfl
@[simp] theorem runStarted_start (l : BitVec 6) (s : State) : (s.runStarted l).start = s.start := rfl
@[simp] theorem runStarted_width (l : BitVec 6) (s : State) : (s.runStarted l).width = s.width := rfl
@[simp] theorem runStarted_height (l : BitVec 6) (s : State) : (s.runStarted l).height = s.height := rfl
@[simp] theorem runStarted_mode (l : BitVec 6) (s : State) : (s.runStarted l).mode = s.mode := rfl
@[simp] theorem runStarted_inMem (l : BitVec 6) (s : State) : (s.runStarted l).inMem = s.inMem := rfl
@[simp] theorem runStarted_outMem (l : BitVec 6) (s : State) : (s.runStarted l).outMem = s.outMem := rfl
@[simp] theorem runStarted_params (l : BitVec 6) (s : State) : (s.runStarted l).params = s.params := rfl
@[simp] theorem runStarted_acquired (l : BitVec 6) (s : State) : (s.runStarted l).acquired = s.acquired := rfl
@[simp] theorem runStarted_moves (l : BitVec 6) (s : State) : (s.runStarted l).moves = s.moves := rfl
@[simp] theorem runStarted_hostData (l : BitVec 6) (s : State) : (s.runStarted l).hostData = s.hostData := rfl
@[simp] theorem runStarted_draws (l : BitVec 6) (s : State) : (s.runStarted l).draws = s.draws := rfl

/-! `State.repeated` -/

@[simp] theorem repeated_px (s : State) : (s.repeated).px = s.px := rfl
@[simp] theorem repeated_cache (s : State) : (s.repeated).cache = s.cache := rfl
@[simp] theorem repeated_pc (s : State) : (s.repeated).pc = s.pc := rfl
@[simp] theorem repeated_outCursor (s : State) : (s.repeated).outCursor = s.outCursor + BitVec.ofNat 32 s.ch.count := rfl
@[simp] theorem repeated_ch (s : State) : (s.repeated).ch = s.ch := rfl
@[simp] theorem repeated_decodedSize (s : State) : (s.repeated).decodedSize = s.decodedSize := rfl
@[simp] theorem repeated_runLeft (s : State) : (s.repeated).runLeft = s.runLeft - 1 := rfl
@[simp] theorem repeated_phase (s : State) : (s.repeated).phase = if s.runLeft - 1 = 0 then .loop else .run := rfl
@[simp] theorem repeated_cmd (s : State) : (s.repeated).cmd = s.cmd := rfl
@[simp] theorem repeated_done (s : State) : (s.repeated).done = s.done := rfl
@[simp] theorem repeated_err (s : State) : (s.repeated).err = s.err := rfl
@[simp] theorem repeated_code (s : State) : (s.repeated).code = s.code := rfl
@[simp] theorem repeated_inLen (s : State) : (s.repeated).inLen = s.inLen := rfl
@[simp] theorem repeated_outLen (s : State) : (s.repeated).outLen = s.outLen := rfl
@[simp] theorem repeated_start (s : State) : (s.repeated).start = s.start := rfl
@[simp] theorem repeated_width (s : State) : (s.repeated).width = s.width := rfl
@[simp] theorem repeated_height (s : State) : (s.repeated).height = s.height := rfl
@[simp] theorem repeated_mode (s : State) : (s.repeated).mode = s.mode := rfl
@[simp] theorem repeated_inMem (s : State) : (s.repeated).inMem = s.inMem := rfl
@[simp] theorem repeated_outMem (s : State) : (s.repeated).outMem = Memory.writeBytes s.outMem s.outCursor.toNat (outputBytes s.ch s.px) := rfl
@[simp] theorem repeated_params (s : State) : (s.repeated).params = s.params := rfl
@[simp] theorem repeated_acquired (s : State) : (s.repeated).acquired = s.acquired := rfl
@[simp] theorem repeated_moves (s : State) : (s.repeated).moves = s.moves := rfl
@[simp] theorem repeated_hostData (s : State) : (s.repeated).hostData = s.hostData := rfl
@[simp] theorem repeated_draws (s : State) : (s.repeated).draws = s.draws := rfl

/-- A first byte that is a run has its field in 0..61 (30_encoding.md R72). -/
theorem kind_run_field : ∀ b0 : Byte, kind b0 = .run → (b0.extractLsb' 0 6).toNat ≤ 61 := by decide

/-- What the dispatcher gives: a pixel token of the length its first byte says, or a run in range. -/
theorem decodeToken_shape {b0 : Byte} {tail rest : List Byte} {i : Instr}
    (h : decodeToken (b0 :: tail) = .ok (i, rest)) (s : State) :
    (∃ q, pixelOf s i = some (tokenLength b0, q)) ∨ ∃ l, i = .run l ∧ l.toNat ≤ 61 ∧ tokenLength b0 = 1 := by
  simp only [decodeToken] at h
  unfold tokenLength
  cases hk : kind b0 <;> rw [hk] at h <;> simp only [decodeFields] at h
  case run =>
    cases h
    exact .inr ⟨_, rfl, kind_run_field b0 hk, rfl⟩
  case index | diff =>
    cases h
    exact .inl ⟨_, rfl⟩
  all_goals
    split at h <;> cases h
    exact .inl ⟨_, rfl⟩

/-- The dispatcher decodes every first byte that has its token's bytes. -/
theorem decodeToken_total {b0 : Byte} {tail : List Byte} (h : tail.length + 1 = tokenLength b0) :
    ∃ i, decodeToken (b0 :: tail) = .ok (i, []) := by
  simp only [decodeToken]
  unfold tokenLength at h
  cases hk : kind b0 <;> rw [hk] at h <;> simp only [TokenKind.length] at h
  case rgb =>
    match tail, h with
    | [_, _, _], _ => exact ⟨_, rfl⟩
  case rgba =>
    match tail, h with
    | [_, _, _, _], _ => exact ⟨_, rfl⟩
  case luma =>
    match tail, h with
    | [_], _ => exact ⟨_, rfl⟩
  all_goals
    match tail, h with
    | [], _ => exact ⟨_, rfl⟩

/-- Running a token is the exec of what its bytes decode to. -/
theorem runToken_ok {s : State} {bs rest : List Byte} {i : Instr} (h : decodeToken bs = .ok (i, rest)) :
    runToken s bs = exec i s := by simp [runToken, h]

/-- The moves of the core, one constructor for each way its step can answer a next state. -/
inductive CoreMove (s : State) : State → Prop where
  | wait (h : s.phase = .idle) : CoreMove s s
  | headerError (e : ErrorKind) (h : s.phase = .hdr) (he : e ≠ .outputIsTooSmall) : CoreMove s (s.raise e)
  | headerDone (w hgt : Word32) (mode : BitVec 2) (h : s.phase = .hdr) (hl : 14 ≤ s.inLen.toNat) :
      CoreMove s (s.acceptHeader w hgt mode)
  | loopEnd (h : s.phase = .loop) (he : s.outCursor.toNat = s.decodedSize) : CoreMove s s.finish
  | guard (h : s.phase = .loop) (he : s.outCursor.toNat ≠ s.decodedSize)
      (hg : s.inLen.toNat ≤ s.pc.toNat + s.params.padLen) : CoreMove s (s.raise .dataTooSmall)
  | short (h : s.tokenDue) (hin : s.inLen.toNat < s.pc.toNat + tokenLength (Memory.read s.inMem s.pc.toNat)) :
      CoreMove s (s.raise .dataTooSmall)
  | token (q : Pixel) (h : s.tokenDue)
      (hin : s.pc.toNat + tokenLength (Memory.read s.inMem s.pc.toNat) ≤ s.inLen.toNat) (hroom : s.roomForPixel) :
      CoreMove s (s.tokenDone (tokenLength (Memory.read s.inMem s.pc.toNat)) q)
  | runToken (l : BitVec 6) (h : s.tokenDue) (hl : l.toNat ≤ 61)
      (hlen : tokenLength (Memory.read s.inMem s.pc.toNat) = 1) (hin : s.pc.toNat + 1 ≤ s.inLen.toNat) :
      CoreMove s (s.runStarted l)
  | runEnd (h : s.phase = .run) (he : s.decodedSize < s.outCursor.toNat + s.ch.count) :
      CoreMove s (s.raise .outputIsTooSmall)
  | repetition (h : s.phase = .run) (he : s.outCursor.toNat + s.ch.count ≤ s.decodedSize) (hroom : s.roomForPixel) :
      CoreMove s s.repeated

/-- The header checks raise one of the header's errors or accept. -/
theorem checkHeader_cases (magic w hgt : Word32) (chan cs : Byte) (s : State) :
    (∃ e, e ≠ .outputIsTooSmall ∧ s.checkHeader magic w hgt chan cs = s.raise e) ∨
    s.checkHeader magic w hgt chan cs = s.acceptHeader w hgt (modeOfHeader chan cs) := by
  unfold State.checkHeader
  split
  · exact .inl ⟨_, by decide, rfl⟩
  · split
    · exact .inl ⟨_, by decide, rfl⟩
    · split
      · exact .inl ⟨_, by decide, rfl⟩
      · exact .inr rfl

/-- The step of the core is one of its moves, or a pixel that OUT has no room for. -/
theorem coreStep_cases (s : State) :
    (∃ t, CoreMove s t ∧ coreStep s = .next t) ∨
    (s.decoding ∧ s.outCursor.toNat ≠ s.decodedSize ∧ ¬s.roomForPixel ∧ coreStep s = .fault .writePastOutput) ∨
    (s.phase = .run ∧ s.outCursor.toNat + s.ch.count ≤ s.decodedSize ∧ ¬s.roomForPixel ∧
      coreStep s = .fault .writePastOutput) := by
  cases hph : s.phase with
  | idle => exact .inl ⟨s, .wait hph, by simp [coreStep, hph]⟩
  | hdr =>
    have hc : coreStep s = headerParse s := by simp [coreStep, hph]
    rw [hc, headerParse_eq]
    split
    · exact .inl ⟨_, .headerError _ hph (by decide), rfl⟩
    · refine .inl ⟨_, ?_, rfl⟩
      rcases checkHeader_cases (s.inWord 0) (s.inWord 4) (s.inWord 8) (Memory.read s.inMem 12) (Memory.read s.inMem 13) s
        with ⟨e, he, h⟩ | h
      · rw [h]
        exact .headerError e hph he
      · rw [h]
        exact .headerDone _ _ _ hph (by omega)
  | loop =>
    have hc : coreStep s = loopStep s := by simp [coreStep, hph]
    rw [hc]
    rcases loopStep_cases s with ⟨h1, h⟩ | ⟨h1, h2, h⟩ | ⟨h1, h2, h⟩
    · exact .inl ⟨_, .loopEnd hph h1, h⟩
    · exact .inl ⟨_, .guard hph h1 h2, h⟩
    · rw [h, fetchToken_eq (by omega)]
      split
      · rename_i hin
        exact .inl ⟨_, .short ⟨hph, h1, h2⟩ hin, rfl⟩
      rename_i hin
      have hlen := tokenLength_cases (Memory.read s.inMem s.pc.toNat)
      obtain ⟨n, hn⟩ : ∃ n, tokenLength (Memory.read s.inMem s.pc.toNat) = n + 1 := ⟨_, (Nat.succ_pred (by omega)).symm⟩
      rw [hn, List.range_succ_eq_map, List.map_cons, Nat.add_zero]
      obtain ⟨i, hi⟩ := decodeToken_total (b0 := Memory.read s.inMem s.pc.toNat)
        (tail := (List.map Nat.succ (List.range n)).map fun k => Memory.read s.inMem (s.pc.toNat + k)) (by simp [hn])
      rw [runToken_ok hi]
      rcases decodeToken_shape hi s with ⟨q, hq⟩ | ⟨l, rfl, hl, hl1⟩
      · rw [exec_of_pixelOf hq, completeToken_eq]
        split
        · rename_i hroom
          exact .inl ⟨_, .token q ⟨hph, h1, h2⟩ (by omega) hroom, rfl⟩
        · rename_i hroom
          exact .inr (.inl ⟨.inl hph, h1, hroom, rfl⟩)
      · exact .inl ⟨_, .runToken l ⟨hph, h1, h2⟩ hl hl1 (by omega), rfl⟩
  | run =>
    have hc : coreStep s = runRepetition s := by simp [coreStep, hph]
    rw [hc, runRepetition_eq]
    split
    · rename_i h
      exact .inl ⟨_, .runEnd hph h, rfl⟩
    · split
      · rename_i h1 h2
        exact .inl ⟨_, .repetition hph (by omega) h2, rfl⟩
      · rename_i h1 h2
        exact .inr (.inr ⟨rfl, by omega, h2, rfl⟩)

end Sys2Proof.Machine
end

