-- ==== Sys2Proof/Laws/Csr.lean ====
section
/-! SUPPORT. The register map and the host's accesses, said once. -/

namespace Sys2Proof.Machine

/-- The cache's offsets (10_state.md R39). -/
theorem csrAt_cache : ∀ i : BitVec 6, csrAt (0x100 + 4 * i.toNat) = .cache i := by decide

/-- Past the last register only the cache is mapped. -/
theorem csrAt_high {off : Nat} (h : 0x34 ≤ off) :
    csrAt off =
      if 0x100 ≤ off ∧ off ≤ 0x1FC ∧ off % 4 = 0 then .cache (BitVec.ofNat 6 ((off - 0x100) / 4)) else .unmapped := by
  unfold csrAt
  split <;> first | (exfalso; omega) | rfl

/-- Every offset from `IN_CURSOR` on is read-only or not in the table. -/
theorem setReg_csrAt_high {off : Nat} (h : 0x24 ≤ off) (h4 : off % 4 = 0) (s : State) (v : Word32) :
    csrAt off ≠ .ctrl ∧ s.setReg (csrAt off) v = s := by
  by_cases h34 : 0x34 ≤ off
  · rw [csrAt_high h34]
    split <;> exact ⟨by simp, rfl⟩
  · obtain rfl | rfl | rfl | rfl : off = 0x24 ∨ off = 0x28 ∨ off = 0x2C ∨ off = 0x30 := by omega
    all_goals exact ⟨by decide, rfl⟩

/-- An aligned 32-bit read is a read of the register at its offset. -/
theorem step_csrRead {s : State} {rest : List HostMove} {off : Nat}
    (h : s.moves = .csrRead (s.params.csrBase + off) .word :: rest) (h4 : off % 4 = 0) :
    step s = readReg (csrAt off) { s with moves := rest } := by
  rw [step_host h]
  simp [hostStep, withCsr, h4]

/-- An aligned 32-bit write is a write of the register at its offset. -/
theorem step_csrWrite {s : State} {rest : List HostMove} {off : Nat} {v : Word32}
    (h : s.moves = .csrWrite (s.params.csrBase + off) .word v :: rest) (h4 : off % 4 = 0) :
    step s = writeReg (csrAt off) v { s with moves := rest } := by
  rw [step_host h]
  simp [hostStep, withCsr, h4]

/-- A register access is refused, or is what the access rules let through. -/
theorem withCsr_cases (addr : Nat) (width : AccessWidth) (s : State) (access : CsrReg → State → Out) :
    (∃ r, withCsr addr width s access = .refused r) ∨ ∃ reg, withCsr addr width s access = access reg s := by
  unfold withCsr
  split
  · exact .inl ⟨_, rfl⟩
  · split
    · exact .inr ⟨_, rfl⟩
    · exact .inl ⟨_, rfl⟩

/-- A read of a register acquires where it had been acquired, or where it is `STATUS` of an idle machine. -/
theorem acquiredBy_iff (s : State) (r : CsrReg) :
    s.acquiredBy r = true ↔ s.acquired = true ∨ (r = .status ∧ s.phase = .idle) := by
  simp [State.acquiredBy, not_busy_iff]

/-- A read of any register but `STATUS` acquires nothing. -/
theorem acquiredBy_other (s : State) {r : CsrReg} (h : r ≠ .status) : s.acquiredBy r = s.acquired := by
  simp [State.acquiredBy, h]

/-- A read of `STATUS` of an idle machine acquires. -/
theorem acquiredBy_status {s : State} (h : s.phase = .idle) : s.acquiredBy .status = true :=
  (acquiredBy_iff s .status).2 (.inr ⟨rfl, h⟩)

/-- A read changes the host's answer, the count of draws and, for `STATUS` of an idle machine, that the host has acquired;
nothing else. -/
theorem readReg_frame (r : CsrReg) (s : State) :
    ∃ w n b, readReg r s = .next { s with hostData := w, draws := n, acquired := b } ∧
      (b = true → s.acquired = true ∨ (r = .status ∧ s.phase = .idle)) := by
  unfold readReg
  split
  · exact ⟨_, _, s.acquired, rfl, .inl⟩
  · exact ⟨_, s.draws, _, rfl, (acquiredBy_iff s r).1⟩

/-- A write is ignored, sets one register of an idle machine, or is a command to an idle machine. -/
theorem writeReg_cases (r : CsrReg) (v : Word32) (s : State) :
    writeReg r v s = .next s ∨ (s.phase = .idle ∧ writeReg r v s = .next (s.setReg r v)) ∨
      (s.phase = .idle ∧ r = .ctrl ∧
        ∃ i, (i = .parseHeader ∨ i = .decode ∨ i = .decodeWithDescriptor) ∧ writeReg r v s = exec i s) := by
  unfold writeReg
  by_cases hb : s.busy = true
  · exact .inl (by simp [hb])
  · have hp := (not_busy_iff s).1 (by simpa using hb)
    rw [if_neg hb]
    cases r
    case ctrl =>
      simp only [writeCtrl, decodeCtrl]
      split
      · rename_i i hi
        refine .inr (.inr ⟨hp, trivial, i, ?_, rfl⟩)
        split at hi <;> cases hi <;> simp
      · exact .inl rfl
    all_goals exact .inr (.inl ⟨hp, rfl⟩)

end Sys2Proof.Machine
end

