-- ==== Sys2Proof/Laws/Hash.lean ====
section
/-! SUPPORT. The overrides can express every hash: quantifying over the parameters quantifies over every function from a
pixel to 6 bits (41_decode_loop.md R129). -/

namespace Sys2Proof.Laws

/-- Every byte. -/
def allBytes : List Byte := (List.range 256).map (BitVec.ofNat 8)

/-- Every pixel. -/
def allPixels : List Pixel :=
  allBytes.flatMap fun r => allBytes.flatMap fun g => allBytes.flatMap fun b => allBytes.map fun a => ⟨r, g, b, a⟩

theorem mem_allBytes (b : Byte) : b ∈ allBytes :=
  List.mem_map.2 ⟨b.toNat, List.mem_range.2 b.isLt, by simp⟩

theorem mem_allPixels (q : Pixel) : q ∈ allPixels := by
  simp only [allPixels, List.mem_flatMap, List.mem_map]
  exact ⟨q.r, mem_allBytes _, q.g, mem_allBytes _, q.b, mem_allBytes _, q.a, mem_allBytes _, rfl⟩

theorem hashLookup_map (f : Pixel → BitVec 6) (d : BitVec 6) {q : Pixel} {ps : List Pixel} (h : q ∈ ps) :
    hashLookup q d (ps.map fun p => (p, f p)) = f q := by
  induction ps with
  | nil => simp at h
  | cons p ps ih =>
    by_cases hp : p = q
    · subst hp
      simp [hashLookup]
    · simp [hashLookup, hp, ih ((List.mem_cons.1 h).resolve_left (Ne.symm hp))]

/-- For every function there are overrides under which `HASH` is that function. -/
theorem hash_represents_every_function (f : Pixel → BitVec 6) (p : Params) :
    ∃ os, ∀ q, ({ p with hashOverrides := os } : Params).hash q = f q :=
  ⟨allPixels.map fun q => (q, f q), fun q => hashLookup_map f _ (mem_allPixels q)⟩

/-- With no overrides `HASH` is the default formula. -/
theorem hash_default (q : Pixel) : Params.default.hash q = defaultHash q := rfl

end Sys2Proof.Laws
end

