-- ==== Sys2Proof/Laws/Host.lean ====
section
/-! SUPPORT. The inversion of the host's moves, beside that of the core's step, and what neither changes. -/

namespace Sys2Proof.Machine

/-- A next state of the core is one of its moves. -/
theorem coreMove_of_next {s t : State} (h : coreStep s = .next t) : CoreMove s t := by
  rcases coreStep_cases s with ⟨u, hu, he⟩ | ⟨_, _, _, he⟩ | ⟨_, _, _, he⟩ <;> rw [he] at h <;> cases h
  exact hu

/-- What a step of the core never writes: IN, the lengths, the start, the parameters, and the host's moves to come. -/
structure SameForCore (s t : State) : Prop where
  inMem : t.inMem = s.inMem
  inLen : t.inLen = s.inLen
  outLen : t.outLen = s.outLen
  start : t.start = s.start
  params : t.params = s.params
  moves : t.moves = s.moves

/-- The decode entry writes no byte of OUT, and nothing the core never writes. -/
theorem decodeEntry_frame (p : Word32) (s : State) :
    SameForCore s (s.decodeEntry p) ∧ (s.decodeEntry p).outMem = s.outMem := by
  rcases decodeEntry_cases p s with ⟨_, e⟩ | ⟨_, _, e⟩ | ⟨_, _, e⟩ <;> rw [e] <;> exact ⟨⟨rfl, rfl, rfl, rfl, rfl, rfl⟩, rfl⟩

/-- A header that passes writes no byte of OUT, and nothing the core never writes. -/
theorem acceptHeader_frame (w hgt : Word32) (mode : BitVec 2) (s : State) :
    SameForCore s (s.acceptHeader w hgt mode) ∧ (s.acceptHeader w hgt mode).outMem = s.outMem := by
  have h := decodeEntry_frame (BitVec.ofNat 32 headerLength) (s.setDescriptor w hgt mode)
  unfold State.acceptHeader
  cases s.cmd
  · exact ⟨⟨rfl, rfl, rfl, rfl, rfl, rfl⟩, rfl⟩
  all_goals exact ⟨⟨h.1.inMem, h.1.inLen, h.1.outLen, h.1.start, h.1.params, h.1.moves⟩, h.2⟩

/-- A move of the core writes nothing the core never writes. -/
theorem coreMove_frame {s t : State} (h : CoreMove s t) : SameForCore s t := by
  cases h
  case headerDone => exact (acceptHeader_frame _ _ _ _).1
  all_goals exact ⟨rfl, rfl, rfl, rfl, rfl, rfl⟩

/-- Only the first offset is `CTRL`. -/
theorem csrAt_eq_ctrl {off : Nat} (h : csrAt off = .ctrl) : off = 0 := by
  unfold csrAt at h
  split at h <;> first | rfl | cases h | (split at h <;> cases h)

/-- Only the second offset is `STATUS`. -/
theorem csrAt_eq_status {off : Nat} (h : csrAt off = .status) : off = 4 := by
  unfold csrAt at h
  split at h <;> first | rfl | cases h | (split at h <;> cases h)

/-- A step of the core acquires nothing. -/
theorem coreMove_acquired {s t : State} (h : CoreMove s t) : t.acquired = s.acquired := by
  cases h
  case headerDone w hgt mode _ _ =>
    have key : ∀ (p : Word32) (u : State), (u.decodeEntry p).acquired = u.acquired := fun p u => by
      rcases decodeEntry_cases p u with ⟨_, e⟩ | ⟨_, _, e⟩ | ⟨_, _, e⟩ <;> rw [e] <;> rfl
    unfold State.acceptHeader
    cases s.cmd
    · rfl
    all_goals exact key _ _
  all_goals rfl

/-- The answers to a move of the host, one constructor for each way it can end. -/
inductive HostAnswer (s : State) : HostMove → Out → Prop where
  | core (o : Out) (h : coreStep s = o) : HostAnswer s .coreStep o
  | reset : HostAnswer s .reset (.next s.assertReset)
  | refusal (m : HostMove) (r : Refusal) : HostAnswer s m (.refused r)
  | csrRead (addr : Nat) (width : AccessWidth) (w : Word32) (n : Nat) (b : Bool)
      (h : b = true → s.acquired = true ∨ (s.phase = .idle ∧ addr = s.params.csrBase + 4 ∧ width = .word)) :
      HostAnswer s (.csrRead addr width) (.next { s with hostData := w, draws := n, acquired := b })
  | csrIgnored (addr : Nat) (width : AccessWidth) (v : Word32) : HostAnswer s (.csrWrite addr width v) (.next s)
  | csrSet (addr : Nat) (width : AccessWidth) (v : Word32) (r : CsrReg) (h : s.phase = .idle) :
      HostAnswer s (.csrWrite addr width v) (.next (s.setReg r v))
  | command (v : Word32) (i : Instr) (h : s.phase = .idle)
      (hi : i = .parseHeader ∨ i = .decode ∨ i = .decodeWithDescriptor) :
      HostAnswer s (.csrWrite s.params.csrBase .word v) (exec i s)
  | writeIn (a : Word32) (v : Byte) (h : s.phase = .idle) :
      HostAnswer s (.writeIn a v) (.next { s with inMem := Memory.write s.inMem a.toNat v })
  | writeOut (a : Word32) (v : Byte) (h : s.phase = .idle) :
      HostAnswer s (.writeOut a v) (.next { s with outMem := Memory.write s.outMem a.toNat v })
  | readOut (a : Word32) (w : Word32) (n : Nat) :
      HostAnswer s (.readOut a) (.next { s with hostData := w, draws := n })

/-- Every move of the host ends in one of those answers. -/
theorem hostStep_cases (m : HostMove) (s : State) : HostAnswer s m (hostStep m s) := by
  cases m with
  | coreStep => exact .core _ rfl
  | reset => exact .reset
  | csrRead addr width =>
    simp only [hostStep, withCsr]
    split
    · exact .refusal _ _
    · split
      · rename_i hbase hword
        obtain ⟨w, n, b, hw, hb⟩ := readReg_frame (csrAt (addr - s.params.csrBase)) s
        rw [hw]
        refine .csrRead addr width w n b fun h => (hb h).imp_right fun ⟨hr, hi⟩ => ⟨hi, ?_, hword.1⟩
        have := csrAt_eq_status hr
        omega
      · exact .refusal _ _
  | csrWrite addr width v =>
    simp only [hostStep, withCsr]
    split
    · exact .refusal _ _
    · split
      · rename_i hbase hword
        rcases writeReg_cases (csrAt (addr - s.params.csrBase)) v s with
          hw | ⟨hi, hw⟩ | ⟨hi, hctrl, i, hcmd, hw⟩ <;> rw [hw]
        · exact .csrIgnored addr width v
        · exact .csrSet addr width v _ hi
        · have := csrAt_eq_ctrl hctrl
          rw [hword.1, show addr = s.params.csrBase by omega]
          exact .command v i hi hcmd
      · exact .refusal _ _
  | writeIn a v =>
    simp only [hostStep, hostWriteIn]
    split
    · exact .refusal _ _
    · rename_i hb
      exact .writeIn a v ((not_busy_iff s).1 (by simpa using hb))
  | writeOut a v =>
    simp only [hostStep, hostWriteOut]
    split
    · exact .refusal _ _
    · rename_i hb
      exact .writeOut a v ((not_busy_iff s).1 (by simpa using hb))
  | readOut a =>
    simp only [hostStep, hostReadOut]
    split
    · exact .readOut a _ s.draws
    · exact .readOut a _ _

/-- A command start writes no byte of IN and leaves the parameters and the host's moves to come. -/
theorem command_frame {i : Instr} (hi : i = .parseHeader ∨ i = .decode ∨ i = .decodeWithDescriptor) {s t : State}
    (h : exec i s = .next t) : SameForCore s t ∧ t.outMem = s.outMem := by
  have key : ∀ (c : Command) (body : State → State), (∀ u, SameForCore u (body u) ∧ (body u).outMem = u.outMem) →
      launch c body s = .next t → SameForCore s t ∧ t.outMem = s.outMem := by
    intro c body hb h
    rw [launch_eq] at h
    split at h
    · cases h
      exact ⟨⟨rfl, rfl, rfl, rfl, rfl, rfl⟩, rfl⟩
    · split at h <;> cases h
      exact ⟨⟨(hb _).1.inMem, (hb _).1.inLen, (hb _).1.outLen, (hb _).1.start, (hb _).1.params, (hb _).1.moves⟩, (hb _).2⟩
  rcases hi with rfl | rfl | rfl
  · exact key .parseHeader (fun t => { t with phase := .hdr }) (fun _ => ⟨⟨rfl, rfl, rfl, rfl, rfl, rfl⟩, rfl⟩) h
  · exact key .decode (fun t => { t with phase := .hdr }) (fun _ => ⟨⟨rfl, rfl, rfl, rfl, rfl, rfl⟩, rfl⟩) h
  · exact key .decodeWithDescriptor (fun t => t.decodeEntry t.start) (fun u => decodeEntry_frame u.start u) h

end Sys2Proof.Machine
end

