-- ==== Sys2Proof/Laws/PerInstr.lean ====
section
/-! SUPPORT. The per-instruction family `WordLength`: how many bytes an instruction's encoding has. -/

namespace Sys2Proof.Laws.WordLength

/-- The encoding of a well-formed instruction has its `length` in bytes (4 for the 32-bit word of a command), and for a
token that is the length its first byte says (30_encoding.md R75). -/
def Statement (i : Instr) : Prop :=
  i.wellFormed = true →
    match encode i with
    | .token [] => False
    | .token (b0 :: rest) => rest.length + 1 = i.length ∧ tokenLength b0 = i.length
    | .ctrlWrite _ => i.length = 4

theorem rgb (r g b : Byte) : Statement (.rgb r g b) := fun _ => ⟨rfl, rfl⟩
theorem rgba (r g b a : Byte) : Statement (.rgba r g b a) := fun _ => ⟨rfl, rfl⟩
theorem index (i : BitVec 6) : Statement (.index i) := fun _ => ⟨rfl, by decide +revert⟩
theorem diff (dr dg db : BitVec 2) : Statement (.diff dr dg db) := fun _ => ⟨rfl, by decide +revert⟩
theorem luma (dg : BitVec 6) (drg dbg : BitVec 4) : Statement (.luma dg drg dbg) := by
  have h : ∀ dg : BitVec 6, tokenLength (0b10#2 ++ dg) = 2 := by decide
  exact fun _ => ⟨rfl, h dg⟩
theorem run (l : BitVec 6) : Statement (.run l) := by
  have h : ∀ l : BitVec 6, (Instr.run l).wellFormed = true → tokenLength (0b11#2 ++ l) = 1 := by decide
  exact fun hw => ⟨rfl, h l hw⟩
theorem parseHeader : Statement .parseHeader := fun _ => rfl
theorem decode : Statement .decode := fun _ => rfl
theorem decodeWithDescriptor : Statement .decodeWithDescriptor := fun _ => rfl

end Sys2Proof.Laws.WordLength
end

