-- ==== Sys2Proof/Tests/Slice0.lean ====
section
/-! SUPPORT. Tests: encodings written out from 30_encoding.md R72 and the vectors of 95_test_vectors.md, one step each. -/

namespace Sys2Proof.Tests

open Sys2Proof.Machine

/-! Well-formedness: the two run fields whose byte is a sentinel are refused (R72). -/

theorem test_run_62_ill_formed : (Instr.run 62).wellFormed = false := by decide
theorem test_run_63_ill_formed : (Instr.run 63).wellFormed = false := by decide
theorem test_run_61_well_formed : (Instr.run 61).wellFormed = true := by decide

/-! Decoding: a word written out bit by bit for every constructor (R72), and the dispatch of the boundary bytes (R77). -/

theorem test_decode_rgb :
    decodeToken [0b11111110, 0b00000001, 0b00000010, 0b00000011] = .ok (.rgb 1 2 3, []) := by decide
theorem test_decode_rgba :
    decodeToken [0b11111111, 0b00001010, 0b00010100, 0b00011110, 0b11111111, 0xC0] =
      .ok (.rgba 10 20 30 255, [0xC0]) := by decide
theorem test_decode_index : decodeToken [0b00110101] = .ok (.index 53, []) := by decide
theorem test_decode_diff : decodeToken [0b01011011] = .ok (.diff 1 2 3, []) := by decide
theorem test_decode_luma : decodeToken [0b10100101, 0b10011100] = .ok (.luma 37 9 12, []) := by decide
theorem test_decode_run : decodeToken [0b11000010] = .ok (.run 2, []) := by decide
theorem test_decode_longest_run : decodeToken [0b11111101] = .ok (.run 61, []) := by decide
theorem test_decode_parse_header : decodeCtrl 0b01 = .ok .parseHeader := by decide
theorem test_decode_decode_reserved_bit : decodeCtrl 0b110 = .ok .decode := by decide
theorem test_decode_descriptor : decodeCtrl 0xFFFFFFFF = .ok .decodeWithDescriptor := by decide
theorem test_decode_ctrl_nop : decodeCtrl 4 = .error .nop := by decide
theorem test_decode_truncated : decodeToken [0xFE, 1, 2] = .error (.truncated .rgb) := by decide
theorem test_decode_nothing : decodeToken [] = .error .noBytes := by decide

/-- Each constructor's encoding reads back, with a different value in each field. -/
theorem test_encode_words :
    encode (.rgb 1 2 3) = .token [0xFE, 1, 2, 3] ∧ encode (.rgba 1 2 3 4) = .token [0xFF, 1, 2, 3, 4] ∧
    encode (.index 9) = .token [0x09] ∧ encode (.diff 1 2 3) = .token [0x5B] ∧
    encode (.luma 37 9 12) = .token [0xA5, 0x9C] ∧ encode (.run 3) = .token [0xC3] ∧
    encode .parseHeader = .ctrlWrite 1 ∧ encode .decode = .ctrlWrite 2 ∧
    encode .decodeWithDescriptor = .ctrlWrite 3 := by decide

/-- The opcode table's words. -/
theorem test_table_words :
    decodeTableWord 32 0x030201FE = some (.rgb 1 2 3) ∧ decodeTableWord 40 0xFF = some (.rgba 0 0 0 0) ∧
    decodeTableWord 8 0x00 = some (.index 0) ∧ decodeTableWord 8 0x40 = some (.diff 0 0 0) ∧
    decodeTableWord 16 0x9CA5 = some (.luma 37 9 12) ∧ decodeTableWord 8 0xC0 = some (.run 0) ∧
    decodeTableWord 32 1 = some .parseHeader ∧ decodeTableWord 32 2 = some .decode ∧
    decodeTableWord 32 3 = some .decodeWithDescriptor := by decide

/-- The same rows with no more bits than their first byte. -/
theorem test_table_bytes :
    decodeTableWord 8 0xFE = some (.rgb 0 0 0) ∧ decodeTableWord 8 0xFF = some (.rgba 0 0 0 0) ∧
    decodeTableWord 8 0x80 = some (.luma 0 0 0) ∧ decodeTableWord 8 1 = some .parseHeader ∧
    decodeTableWord 8 2 = some .decode ∧ decodeTableWord 8 3 = some .decodeWithDescriptor ∧
    decodeTableWord 8 4 = some (.index 4) := by decide

/-! The default hash (95 section 2.9). -/

theorem test_hash_black : defaultHash ⟨0, 0, 0, 255⟩ = 53 := by decide
theorem test_hash_collision : defaultHash ⟨74, 20, 30, 255⟩ = 9 ∧ defaultHash ⟨10, 20, 30, 255⟩ = 9 := by decide

/-! One token: the state is a decode under way with room for two pixels. -/

/-- What a test looks at of an outcome. -/
def sees {α : Type} (o : Out) (f : State → α) : Option α :=
  match o with
  | .next t => some (f t)
  | .fault _ => none
  | .refused _ => none

/-- A decode of a 2-by-1 image under way with the channels, running pixel and bytes given, 8 bytes of padding after
them. -/
def decodingState (ch : Channels) (q : Pixel) (bytes : List Byte) : State :=
  { State.reset with
    phase := .loop, ch := ch, px := q, decodedSize := 2 * ch.count, outLen := 8, cmd := .decodeWithDescriptor
    width := 2, height := 1, mode := match ch with | .three => 0 | .four => 1
    inMem := Memory.writeBytes [] 0 bytes, inLen := BitVec.ofNat 32 (bytes.length + 8) }

def black : Pixel := ⟨0, 0, 0, 255⟩

/-- The first four bytes of OUT. -/
def out4 (t : State) : List Byte := (List.range 4).map (Memory.read t.outMem)

/-- Vector L2: alpha is kept. -/
theorem test_rgb_L2 :
    sees (step (decodingState .four ⟨9, 9, 9, 0⟩ [0xFE, 0x0A, 0x14, 0x1E]))
      (fun t => (t.px, t.cacheAt 20, out4 t, t.pc)) =
      some (⟨10, 20, 30, 0⟩, ⟨10, 20, 30, 0⟩, [0x0A, 0x14, 0x1E, 0x00], 4) := by decide

/-- Vector L1 in a 3-channel mode. -/
theorem test_rgb_L1_three :
    sees (step (decodingState .three black [0xFE, 1, 2, 3])) (fun t => (t.px, t.cacheAt 23, t.outCursor, out4 t)) =
      some (⟨1, 2, 3, 255⟩, ⟨1, 2, 3, 255⟩, 3, [1, 2, 3, 0]) := by decide

/-- Vector A2, the source's literal scenario. -/
theorem test_rgba_A2 :
    sees (step (decodingState .four black [0xFF, 0x0A, 0x14, 0x1E, 0xFF]))
      (fun t => (t.px, t.cacheAt 9, out4 t, t.pc)) =
      some (⟨10, 20, 30, 255⟩, ⟨10, 20, 30, 255⟩, [0x0A, 0x14, 0x1E, 0xFF], 5) := by decide

/-- Vector A5: `FORCED_255` before the write-back. -/
theorem test_rgba_A5 :
    let s := decodingState .three black [0xFF, 1, 2, 3, 4]
    sees (step { s with params := { s.params with alphaRgb := .forced255 } }) (fun t => (t.px, t.cacheAt 23)) =
      some (⟨1, 2, 3, 255⟩, ⟨1, 2, 3, 255⟩) := by decide

/-- Vector I1: an unwritten slot. -/
theorem test_index_I1 :
    sees (step (decodingState .four black [0x05])) (fun t => (t.px, out4 t, t.pc)) =
      some (⟨0, 0, 0, 0⟩, [0, 0, 0, 0], 1) := by decide

/-- Vector I4: the slot written back is the pixel's own hash. -/
theorem test_index_I4 :
    let s := decodingState .three black [0x01]
    sees (step { s with params := { s.params with alphaRgb := .forced255 } })
      (fun t => (t.px, t.cacheAt 53, t.cacheAt 1)) =
      some (⟨0, 0, 0, 255⟩, ⟨0, 0, 0, 255⟩, ⟨0, 0, 0, 0⟩) := by decide

/-- Vector D6. -/
theorem test_diff_D6 :
    sees (step (decodingState .four ⟨255, 0, 128, 7⟩ [0x5B])) (fun t => (t.px, t.cacheAt 14)) =
      some (⟨254, 0, 129, 7⟩, ⟨254, 0, 129, 7⟩) := by decide

/-- Vector D1: every lane wraps. -/
theorem test_diff_D1 :
    sees (step (decodingState .four black [0x40])) (fun t => (t.px, t.pc)) = some (⟨254, 254, 254, 255⟩, 1) := by decide

/-- Vector M4. -/
theorem test_luma_M4 :
    sees (step (decodingState .four ⟨0, 128, 255, 255⟩ [0xA5, 0x9C])) (fun t => (t.px, t.cacheAt 24, t.pc)) =
      some (⟨6, 133, 8, 255⟩, ⟨6, 133, 8, 255⟩, 2) := by decide

/-- Vector M1: the most negative deltas. -/
theorem test_luma_M1 :
    sees (step (decodingState .four black [0x80, 0x00])) (fun t => t.px) = some ⟨216, 224, 216, 255⟩ := by decide

/-- The run token counts its repetitions and writes nothing yet (R171). -/
theorem test_run_token :
    sees (step (decodingState .four black [0xC2])) (fun t => (t.runLeft, t.phase, t.pc, t.outCursor)) =
      some (3, .run, 1, 0) := by decide

/-- A repetition past the expected pixel count (R172, vector U4). -/
theorem test_run_past_end :
    let s := decodingState .four black []
    sees (step { s with phase := .run, runLeft := 1, outCursor := 8 }) (fun t => (t.code, t.err, t.runLeft, t.busy)) =
      some (5, true, 1, false) := by decide

/-- Vector G4: the guard. -/
theorem test_guard :
    let s := decodingState .four black [0xFF]
    sees (step { s with inLen := 8 }) (fun t => (t.code, t.err, t.pc)) = some (1, true, 0) := by decide

/-! The commands and the header. -/

/-- An idle machine whose IN holds the bytes given, and whose host writes a word to `CTRL` next. -/
def idleState (bytes : List Byte) (ctrl : Word32) : State :=
  { State.reset with
    inMem := Memory.writeBytes [] 0 bytes, inLen := BitVec.ofNat 32 bytes.length, outLen := 4
    moves := [.csrWrite State.reset.params.csrBase .word ctrl] }

/-- Vector C5: a reserved bit is ignored. -/
theorem test_start_decode : sees (step (idleState [] 6)) (fun t => (t.phase, t.cmd, t.busy)) = some (.hdr, .decode, true) := by
  decide

theorem test_start_parse_header :
    sees (step (idleState [] 1)) (fun t => (t.phase, t.cmd)) = some (.hdr, .parseHeader) := by decide

/-- Vector C2. -/
theorem test_ctrl_nop : sees (step (idleState [] 0)) (fun t => (t.phase, t.statusWord)) = some (.idle, 0) := by decide

/-- Program P6's start. -/
theorem test_start_with_descriptor :
    let s := idleState [0xFF, 0x0A, 0x14, 0x1E, 0xFF] 3
    sees (step { s with width := 1, height := 1, mode := 1, start := 0 })
      (fun t => (t.phase, t.ch, t.decodedSize, t.pc)) = some (.loop, .four, 4, 0) := by decide

/-- Vector G9: the zero exit comes first. -/
theorem test_zero_width :
    let s := idleState [] 3
    sees (step { s with start := 100, outLen := 0 }) (fun t => (t.done, t.err, t.pc, t.phase)) =
      some (true, false, 100, .idle) := by decide

/-- A header under parse, the fourteen bytes given. -/
def headerState (cmd : Command) (bytes : List Byte) : State :=
  { idleState bytes 0 with moves := [], phase := .hdr, cmd := cmd }

/-- Vector W2. -/
theorem test_header_W2 :
    sees (step (headerState .parseHeader [0x71, 0x6F, 0x69, 0x66, 0, 0, 0, 2, 0, 0, 0, 1, 4, 1]))
      (fun t => (t.width, t.height, t.mode, t.done)) = some (2, 1, 3, true) := by decide

/-- Vector H10: big-endian fields. -/
theorem test_header_H10 :
    sees (step (headerState .parseHeader [0x71, 0x6F, 0x69, 0x66, 0x12, 0x34, 0x56, 0x78, 0, 0, 1, 0, 3, 0]))
      (fun t => (t.width, t.height, t.mode)) = some (0x12345678, 256, 0) := by decide

/-- Vectors H1, H2, H3, H4b: the errors and their priority. -/
theorem test_header_errors :
    sees (step (headerState .parseHeader [0x71, 0x6F, 0x69, 0x66, 0, 0, 0, 1, 0, 0, 0, 1, 3])) (·.code) = some 1 ∧
    sees (step (headerState .parseHeader [0x71, 0x6F, 0x69, 0x46, 0, 0, 0, 1, 0, 0, 0, 1, 3, 0])) (·.code) = some 2 ∧
    sees (step (headerState .parseHeader [0x71, 0x6F, 0x69, 0x66, 0, 0, 0, 1, 0, 0, 0, 1, 5, 0])) (·.code) = some 3 ∧
    sees (step (headerState .parseHeader [0x71, 0x6F, 0x69, 0x66, 0, 0, 0, 1, 0, 0, 0, 1, 5, 2])) (·.code) = some 4 := by
  decide

/-! The register block. -/

/-- The answer to a host read. -/
def csrAnswer (s : State) (offset : Nat) : Option Word32 :=
  sees (step { s with moves := [.csrRead (s.params.csrBase + offset) .word] }) (·.hostData)

/-- Vectors C1 and C6. -/
theorem test_csr_after_reset :
    csrAnswer State.reset 0x04 = some 0 ∧ csrAnswer State.reset 0x14 = some 14 ∧
    csrAnswer State.reset 0x2C = some 0xFF000000 ∧ csrAnswer State.reset 0x34 = some 0 := by decide

/-- Vector C7: r in the low byte. -/
theorem test_csr_cache :
    csrAnswer { State.reset with cache := State.reset.cache.set 9 ⟨10, 20, 30, 255⟩ } 0x124 = some 0xFF1E140A := by decide

/-- Vector C4. -/
theorem test_csr_write_while_busy :
    let s := decodingState .four black []
    sees (step { s with moves := [.csrWrite (s.params.csrBase + 0x10) .word 99] }) (·.outLen) = some 8 := by decide

theorem test_csr_write_mode :
    sees (step { State.reset with moves := [.csrWrite (State.reset.params.csrBase + 0x20) .word 0xFF] }) (·.mode) =
      some 3 := by decide

/-- R60 items 2 and 3, R206: an OUT read is exact once `BUSY = 0` has been read since the start, and a draw before. -/
theorem test_out_read :
    let s := { State.reset with outMem := [(0, 9)], moves := [.readOut 0] }
    sees (step { s with acquired := true }) (fun t => (t.hostData, t.draws)) = some (9, 0) ∧
      sees (step s) (·.draws) = some 1 ∧
      sees (step { s with acquired := true, phase := .hdr }) (·.draws) = some 1 := by decide

/-- R61: reading `STATUS` acquires while idle and not while busy; a command start ends it. -/
theorem test_acquire :
    let poll := fun s : State => { s with moves := [.csrRead (s.params.csrBase + 4) .word] }
    sees (step (poll State.reset)) (·.acquired) = some true ∧
      sees (step (poll (decodingState .four black []))) (·.acquired) = some false ∧
      sees (step { idleState [] 1 with acquired := true }) (·.acquired) = some false := by decide

/-! The assembler (R80) on program P1's lines. -/

theorem test_assemble_P1 :
    assemble Params.default
      [.header 2 2 4 0, .rgba 10 20 30 255, .diff 1 1 1, .run 1, .index 9, .pad] =
      some [0x71, 0x6F, 0x69, 0x66, 0, 0, 0, 2, 0, 0, 0, 2, 4, 0, 0xFF, 0x0A, 0x14, 0x1E, 0xFF, 0x7F, 0xC0, 0x09,
        0, 0, 0, 0, 0, 0, 0, 1] := by decide

theorem test_assemble_refuses : (AsmLine.run 63).assemble Params.default = none ∧
    (AsmLine.diff 2 0 0).assemble Params.default = none := by decide

/-! Placing an instruction: the first step after reset runs it. -/

theorem test_placed_rgb : sees (step (State.reset.withFetchWord 32 0x030201FE)) (·.px) = some ⟨1, 2, 3, 255⟩ := by decide
theorem test_placed_run : sees (step (State.reset.withFetchWord 8 0xC0)) (·.runLeft) = some 1 := by decide
theorem test_placed_parse_header : sees (step (State.reset.withFetchWord 8 1)) (·.phase) = some .hdr := by decide
theorem test_placed_decode : sees (step (State.reset.withFetchWord 32 2)) (·.phase) = some .hdr := by decide

/-! ## Witnesses: for each statement with hypotheses, a concrete state and operands that meet them all, for each clause at
the bounds of its range. -/

/-- Opening the invariant into checks that a concrete state decides. -/
theorem machineInv_of {s : State}
    (h : s.params.legal ∧ Memory.wf s.inMem ∧ Memory.wf s.outMem ∧ ¬(s.done = true ∧ s.err = true) ∧
      (s.busy = true → s.done = false ∧ s.err = false) ∧ (s.err = true ↔ s.code ≠ 0) ∧ s.code.toNat ≤ 5 ∧
      (s.busy = true → s.buffersOverlap = false) ∧ s.runLeft.toNat ≤ 62 ∧ (s.phase = .loop → s.runLeft = 0) ∧
      (s.phase = .run → s.runLeft ≠ 0) ∧
      (s.phase = .run → s.outCursor.toNat = s.decodedSize → s.runLeft.toNat ≤ 61) ∧
      (s.phase = .hdr → s.cmd ≠ .decodeWithDescriptor) ∧ (s.acquired = true → s.phase = .idle))
    (hc : ∀ i : BitVec 6, s.cacheAt i = Pixel.transparentBlack ∨ s.params.hash (s.cacheAt i) = i)
    (hd : s.decoding → s.cmd ≠ .parseHeader ∧ s.ch = channelsOfMode s.mode ∧
      s.decodedSize = s.width.toNat * s.height.toNat * s.ch.count ∧ (s.width ≠ 0 ∧ s.height ≠ 0) ∧
      s.decodedSize ≤ s.outLen.toNat ∧ s.outCursor.toNat ≤ s.decodedSize ∧ s.ch.count ∣ s.outCursor.toNat ∧
      (s.pc = s.entry ∨ s.pc.toNat ≤ s.inLen.toNat) ∧
      (s.params.alphaRgb = .forced255 → s.ch = .three → s.px.a = 255)) : MachineInv s := by
  obtain ⟨h1, h2, h3, h4, h5, h6, h7, h8, h9, h10, h11, h12, h13, h14⟩ := h
  refine ⟨h1, h2, h3, h4, h5, h6, h7, h8, h9, h10, h11, h12, h13, h14, hc, fun hx => ?_⟩
  obtain ⟨d1, d2, d3, d4, d5, d6, d7, d8, d9⟩ := hd hx
  exact ⟨d1, d2, d3, d4, d5, d6, d7, d8, d9⟩

theorem witness_EncodeThenDecodeGivesBack :
    (Instr.run 61).wellFormed = true ∧ (Instr.run 61).isToken = true ∧ Instr.decode.wellFormed = true := by decide

theorem witness_DecodedBytesAreTheEncoding : decodeToken [0xFD, 7] = .ok (.run 61, [7]) := by decide

theorem witness_FirstByteSelectsTokenAndLength :
    decodeToken [0x00] = .ok (.index 0, []) ∧ decodeToken [0x3F] = .ok (.index 63, []) ∧
    decodeToken [0x40] = .ok (.diff 0 0 0, []) ∧ decodeToken [0x7F] = .ok (.diff 3 3 3, []) ∧
    decodeToken [0x80, 0] = .ok (.luma 0 0 0, []) ∧ decodeToken [0xBF, 0xFF] = .ok (.luma 63 15 15, []) ∧
    decodeToken [0xC0] = .ok (.run 0, []) ∧ decodeToken [0xFD] = .ok (.run 61, []) ∧
    decodeToken [0xFE, 0, 0, 0] = .ok (.rgb 0 0 0, []) ∧ decodeToken [0xFF, 0, 0, 0, 0] = .ok (.rgba 0 0 0 0, []) := by
  decide

/-- The operands at and past the ends of their ranges. -/
theorem witness_AssembledOperandsAreAsWritten :
    (AsmLine.diff (-2) 1 1).token = some (.diff 0 3 3) ∧ (AsmLine.diff (-3) 0 0).token = none ∧
    (AsmLine.diff 0 2 0).token = none ∧ (AsmLine.luma (-32) (-8) 7).token = some (.luma 0 0 15) ∧
    (AsmLine.luma 31 7 7).token = some (.luma 63 15 15) ∧ (AsmLine.luma 32 0 0).token = none ∧
    (AsmLine.luma 0 0 8).token = none ∧ (AsmLine.run 1).token = some (.run 0) ∧
    (AsmLine.run 62).token = some (.run 61) ∧ (AsmLine.run 0).token = none ∧ (AsmLine.run 63).token = none := by decide

/-- OUT with room for exactly one pixel, in both channel counts. -/
def lastPixel (ch : Channels) : State :=
  { decodingState ch black [] with outLen := BitVec.ofNat 32 ch.count }

/-- The hypotheses of RgbTokenEffect, RgbaTokenEffect, IndexTokenEffect, DiffTokenEffect, LumaTokenEffect and
DeltaAdditionWraps. -/
theorem witness_PixelTokenEffect :
    Memory.wf (lastPixel .three).outMem ∧ (lastPixel .three).roomForPixel ∧
    Memory.wf (lastPixel .four).outMem ∧ (lastPixel .four).roomForPixel := by decide

theorem witness_RunTokenEffect : (61 : BitVec 6).toNat ≤ 61 := by decide

theorem witness_DeltaTokensKeepAlpha :
    let s := decodingState .three black []
    let f := { s with params := { s.params with alphaRgb := .forced255 } }
    MachineInv f ∧ f.phase = .loop ∧ f.ch = .three ∧ f.params.alphaRgb = .forced255 ∧
      (∃ t, exec (.diff 0 0 0) f = .next t) ∧ ∃ t, exec (.luma 63 15 15) f = .next t :=
  ⟨machineInv_of (by decide) (by decide) (by decide), rfl, rfl, rfl, ⟨_, rfl⟩, ⟨_, rfl⟩⟩

theorem witness_LookupSeesThePreviousWriteBack :
    (Instr.rgb 1 2 3).isToken = true ∧ (∀ l, Instr.rgb 1 2 3 ≠ .run l) ∧
      ∃ t, exec (.rgb 1 2 3) (decodingState .four black []) = .next t ∧ t.roomForPixel :=
  ⟨rfl, by decide, _, rfl, by decide⟩

theorem witness_PixelTokenWithoutRoomStops :
    (Instr.index 0).isToken = true ∧ (∀ l, Instr.index 0 ≠ .run l) ∧
      ¬({ lastPixel .four with outLen := 3 } : State).roomForPixel := ⟨rfl, by decide, by decide⟩

/-! Commands. -/

theorem witness_HeaderCommandsStart : State.reset.canLaunch := by decide

theorem witness_DescriptorDecodeOfEmptyImage :
    State.reset.canLaunch ∧ State.reset.width = 0 ∧
    ({ State.reset with width := 1 } : State).canLaunch ∧ ({ State.reset with width := 1 } : State).height = 0 := by decide

/-- An idle machine with the descriptor of a 1-by-1 image with alpha, and a buffer of the size given. -/
def onePixel (outLen : Word32) : State := { State.reset with width := 1, height := 1, mode := 1, outLen := outLen }

theorem witness_DescriptorDecodeIntoSmallBuffer :
    let s := onePixel 3
    s.canLaunch ∧ s.width ≠ 0 ∧ s.height ≠ 0 ∧
      s.outLen.toNat < s.width.toNat * s.height.toNat * (if s.mode.getLsbD 0 then 4 else 3) := by decide

theorem witness_DescriptorDecodeEntersLoop :
    let s := onePixel 4
    s.canLaunch ∧ s.width ≠ 0 ∧ s.height ≠ 0 ∧
      s.width.toNat * s.height.toNat * (if s.mode.getLsbD 0 then 4 else 3) ≤ s.outLen.toNat := by decide

theorem witness_CommandWhileBusyIsIgnored :
    Instr.decode.isToken = false ∧ (decodingState .four black []).phase ≠ .idle := by decide

/-- IN at 0 and OUT from `outBase` on, one byte each. -/
def oneByteBuffers (outBase : Nat) : State :=
  { State.reset with inLen := 1, outLen := 1, params := { Params.default with outBase := outBase } }

/-- The two buffers share their one byte, or OUT begins just past IN. -/
theorem witness_OverlappingLaunchIsRefused :
    let shared := fun s : State => ∃ x, s.params.inBase ≤ x ∧ x < s.params.inBase + s.inLen.toNat ∧
      s.params.outBase ≤ x ∧ x < s.params.outBase + s.outLen.toNat
    Instr.parseHeader.isToken = false ∧ (oneByteBuffers 0).phase = .idle ∧ shared (oneByteBuffers 0) ∧
      (oneByteBuffers 1).phase = .idle ∧ ¬shared (oneByteBuffers 1) := by
  refine ⟨rfl, rfl, ⟨0, by decide⟩, rfl, ?_⟩
  rintro ⟨x, -, h1, h2, -⟩
  exact Nat.lt_irrefl _ (Nat.lt_of_lt_of_le h1 h2)

/-! The header. -/

/-- A header for a 1-by-1 image with the magic's last byte, channel count and tag given. -/
def header (magic chan cs : Byte) : List Byte := [0x71, 0x6F, 0x69, magic, 0, 0, 0, 1, 0, 0, 0, 1, chan, cs]

/-- A state for each branch, at its bound: 13 bytes, a wrong magic, tag 2, channel counts 2 and 5, and a good header. -/
theorem witness_HeaderErrorsInOrder :
    (∀ s ∈ [headerState .decode (header 0x66 3 0).dropLast, headerState .decode (header 0x65 3 0),
      headerState .decode (header 0x66 3 2), headerState .decode (header 0x66 2 1), headerState .decode (header 0x66 5 0),
      headerState .decode (header 0x66 3 0)], s.moves = [] ∧ s.phase = .hdr) ∧
    (headerState .decode (header 0x66 3 0).dropLast).inLen.toNat = 13 ∧
    inNumber (headerState .decode (header 0x65 3 0)) 0 ≠ Params.default.magic.toNat ∧
    headerTag (headerState .decode (header 0x66 3 2)) = 2 ∧
    headerChannels (headerState .decode (header 0x66 2 1)) = 2 ∧
    headerChannels (headerState .decode (header 0x66 5 0)) = 5 ∧
    (headerState .decode (header 0x66 3 0)).headerGood := by decide

theorem witness_ParseHeaderWritesTheDescriptor :
    let s := headerState .parseHeader (header 0x66 4 1)
    s.moves = [] ∧ s.phase = .hdr ∧ s.cmd = .parseHeader ∧ s.headerGood := by decide

/-- A zero width, a buffer one byte short, and a buffer that fits. -/
theorem witness_DecodeEntersAtFourteen :
    let meets := fun s : State => s.moves = [] ∧ s.phase = .hdr ∧ s.cmd = .decode ∧ s.headerGood ∧ s.done = false ∧
      s.err = false ∧ s.code = 0
    let s := headerState .decode (header 0x66 4 1)
    let z := { s with inMem := Memory.write s.inMem 7 0 }
    meets z ∧ inNumber z 4 = 0 ∧ meets { s with outLen := 3 } ∧ meets s ∧ inNumber s 4 = 1 ∧ inNumber s 8 = 1 ∧
      s.outLen = 4 := by decide

theorem witness_ParseHeaderTwiceEndsAlike : State.reset.canLaunch ∧ State.reset.moves = [] := by decide

/-! The decode loop. -/

/-- The loop with the image complete. -/
def complete : State := { decodingState .four black [] with outCursor := 8 }

theorem witness_LoopEndsAtDecodedSize :
    complete.moves = [] ∧ complete.phase = .loop ∧ complete.outCursor.toNat = complete.decodedSize := by decide

/-- `PAD_LEN` bytes left, and one more. -/
theorem witness_GuardRaisesDataTooSmall :
    let s := decodingState .four black []
    let t := decodingState .four black [0xC0]
    s.moves = [] ∧ s.phase = .loop ∧ s.outCursor.toNat ≠ s.decodedSize ∧
      (s.inLen.toNat : Int) - s.pc.toNat ≤ s.params.padLen ∧ t.moves = [] ∧ t.phase = .loop ∧
      t.outCursor.toNat ≠ t.decodedSize ∧ (t.params.padLen : Int) < t.inLen.toNat - t.pc.toNat ∧ t.params.legal := by decide

theorem witness_StepRunsTheTokenAtPc :
    let s := decodingState .four black [0xC0]
    s.moves = [] ∧ s.params.legal ∧ s.tokenDue ∧ (Instr.run 0).isToken = true ∧ (Instr.run 0).wellFormed = true ∧
      s.holds s.pc.toNat (Instr.run 0).bytes := by decide

theorem witness_StepRunsTheCommandWritten :
    (∀ w, (idleState [] w).moves = [.csrWrite (idleState [] w).params.csrBase .word w] ∧
      (idleState [] w).phase = .idle) ∧
    (4 : Word32).toNat % 4 = 0 ∧ (1 : Word32).toNat % 4 = 1 ∧ (2 : Word32).toNat % 4 = 2 ∧
    (0xFFFFFFFF : Word32).toNat % 4 = 3 := ⟨fun _ => ⟨rfl, rfl⟩, by decide, by decide, by decide, by decide⟩

/-- A run with the pixel cursor and the repetitions left given. -/
def runState (outCursor : Word32) (runLeft : BitVec 6) : State :=
  { decodingState .four black [] with phase := .run, outCursor := outCursor, runLeft := runLeft }

theorem runState_inv : MachineInv (runState 4 2) ∧ MachineInv (runState 8 1) ∧ MachineInv (runState 8 61) :=
  ⟨machineInv_of (by decide) (by decide) (by decide), machineInv_of (by decide) (by decide) (by decide),
    machineInv_of (by decide) (by decide) (by decide)⟩

/-- At the end of the image, and one pixel before it. -/
theorem witness_RunRepetitionStep :
    let s := runState 8 1
    let t := runState 4 1
    s.moves = [] ∧ s.phase = .run ∧ s.decodedSize < s.outCursor.toNat + s.ch.count ∧ t.moves = [] ∧ t.phase = .run ∧
      t.outCursor.toNat + t.ch.count ≤ t.decodedSize ∧ t.roomForPixel ∧ Memory.wf t.outMem := by decide

theorem witness_FailedRunStandsAtTheEnd :
    MachineInv (runState 8 61) ∧ (runState 8 61).moves = [] ∧ (runState 8 61).phase = .run ∧
      ∃ t, step (runState 8 61) = .next t ∧ t.err = true := ⟨runState_inv.2.2, rfl, rfl, _, rfl, rfl⟩

/-- A run that passes the end of the image after one repetition. -/
theorem witness_RunEqualsItsFusedForm :
    MachineInv (runState 4 2) ∧ (runState 4 2).moves = [] ∧ (runState 4 2).phase = .run := ⟨runState_inv.1, rfl, rfl⟩

/-! The host's side. -/

/-- A machine with one read of the register block to come. -/
def reading (s : State) (off : Nat) : State := { s with moves := [.csrRead (s.params.csrBase + off) .word] }

/-- A machine with one write of the register block to come. -/
def writing (s : State) (off : Nat) (v : Word32) : State :=
  { s with moves := [.csrWrite (s.params.csrBase + off) .word v] }

/-- The first and the last of the exact registers, a command running. -/
theorem witness_ExactRegistersRead :
    let s := decodingState .four black []
    (reading s 0x00).moves = [.csrRead (s.params.csrBase + 0x00) .word] ∧
    (reading s 0x20).moves = [.csrRead (s.params.csrBase + 0x20) .word] ∧
    ((0x20, s.mode.toNat) : Nat × Nat) ∈ [(0x00, 0),
      (0x04, (if s.phase = .idle then 0 else 1) + (if s.done then 2 else 0) + (if s.err then 4 else 0)),
      (0x08, s.code.toNat), (0x0C, s.inLen.toNat), (0x10, s.outLen.toNat), (0x14, s.start.toNat),
      (0x18, s.width.toNat), (0x1C, s.height.toNat), (0x20, s.mode.toNat)] := by decide

theorem witness_ProgressRegistersReadWhenIdle :
    let s := State.reset
    (reading s 0x30).moves = [.csrRead (s.params.csrBase + 0x30) .word] ∧ (reading s 0x30).phase = .idle ∧
    ((0x30, s.runLeft.toNat) : Nat × Nat) ∈ [(0x24, s.pc.toNat), (0x28, s.outCursor.toNat), (0x2C, pixelNumber s.px),
      (0x30, s.runLeft.toNat)] ∧
    (reading s 0x1FC).moves = [.csrRead (s.params.csrBase + 0x1FC) .word] ∧
    ∃ i : BitVec 6, 0x1FC = 0x100 + 4 * i.toNat := ⟨rfl, rfl, by decide, rfl, 63, rfl⟩

theorem witness_ProgressRegistersAreDrawnWhenBusy :
    let s := decodingState .four black []
    (reading s 0x30).moves = [.csrRead (s.params.csrBase + 0x30) .word] ∧ (reading s 0x30).phase ≠ .idle ∧
    0x30 ∈ [0x24, 0x28, 0x2C, 0x30] ∧ ∃ i : BitVec 6, 0x100 = 0x100 + 4 * i.toNat := ⟨rfl, by decide, by decide, 0, rfl⟩

/-- Each writable register, and the read-only and unmapped offsets at their bounds. -/
theorem witness_RegisterWritesWhenIdle :
    (∀ off ∈ [0x04, 0x08, 0x0C, 0x10, 0x14, 0x18, 0x1C, 0x20, 0x24, 0x34, 0x1FC, 0x200],
      (writing State.reset off 7).moves = [.csrWrite (State.reset.params.csrBase + off) .word 7] ∧
      (writing State.reset off 7).phase = .idle ∧ off % 4 = 0) := by decide

theorem witness_UnmappedOffsetsReadZero :
    ∀ off ∈ [0x34, 0xFC, 0x200], (reading State.reset off).moves = [.csrRead (State.reset.params.csrBase + off) .word] ∧
      off % 4 = 0 ∧ (0x34 ≤ off ∧ off < 0x100 ∨ 0x200 ≤ off) := by decide

theorem witness_RegisterWritesWhileBusyAreIgnored :
    ∀ off ∈ [0x00, 0x0C, 0x20, 0x200], let s := decodingState .four black []
      (writing s off 3).moves = [.csrWrite (s.params.csrBase + off) .word 3] ∧ off % 4 = 0 ∧ (writing s off 3).phase ≠ .idle := by
  decide

theorem witness_OtherRegisterAccessesAreRefused :
    ({ State.reset with moves := [.csrRead (State.reset.params.csrBase + 4) .half] } : State).moves =
      [.csrRead (State.reset.params.csrBase + 4) .half] ∧ AccessWidth.half ≠ .word ∧
    (writing State.reset 5 0).moves = [.csrWrite (State.reset.params.csrBase + 5) .word 0] ∧ 5 % 4 ≠ 0 := by decide

/-- Each move at the last offset, idle and acquired, idle and not, and busy. -/
theorem witness_HostMemoryMoves :
    ∀ s ∈ [{ State.reset with acquired := true }, State.reset, decodingState .four black []], Memory.wf s.inMem ∧ Memory.wf s.outMem ∧
      ∀ m ∈ [HostMove.writeIn 0xFFFFFFFF 1, .writeOut 0xFFFFFFFF 0, .readOut 0xFFFFFFFF],
        ({ s with moves := [m] } : State).moves = [m] := by decide

/-- A poll of `STATUS` and a read of OUT after it. -/
def polling : State :=
  { State.reset with
    outMem := [(0, 9)], moves := [.csrRead (State.reset.params.csrBase + 4) .word, .readOut 0] }

theorem witness_StatusReadAcquires :
    polling.phase = .idle ∧ polling.moves = [.csrRead (polling.params.csrBase + 0x04) .word, .readOut 0] ∧
      polling.acquired = false ∧ ∃ t, step polling = .next t ∧ t.acquired = true := ⟨rfl, rfl, rfl, _, rfl, rfl⟩

theorem witness_ResetAbandonsTheCommand :
    ({ decodingState .four black [] with moves := [.reset] } : State).moves = [.reset] := rfl

theorem witness_IdleCoreWaits :
    State.reset.phase = .idle ∧ State.reset.moves = [] ∧
      ({ State.reset with moves := [.coreStep] } : State).moves = [.coreStep] := by decide

/-! The whole machine. -/

/-- The decode of an RGB token under way. -/
def rgbNext : State := decodingState .four black [0xFE, 1, 2, 3]

theorem rgbNext_inv : MachineInv rgbNext := machineInv_of (by decide) (by decide) (by decide)

theorem complete_inv : MachineInv complete := machineInv_of (by decide) (by decide) (by decide)

theorem guard_inv : MachineInv (decodingState .four black []) := machineInv_of (by decide) (by decide) (by decide)

theorem header_inv (cmd : Command) (h : cmd ≠ .decodeWithDescriptor) (bytes : List Byte)
    (hw : Memory.wf (headerState cmd bytes).inMem)
    (ho : (headerState cmd bytes).buffersOverlap = false) : MachineInv (headerState cmd bytes) :=
  machineInv_of ⟨(by decide : Params.default.legal), hw, (by decide : Memory.wf []), by nofun, fun _ => ⟨rfl, rfl⟩,
    ⟨by nofun, fun h => absurd rfl h⟩, (by decide : (0 : BitVec 3).toNat ≤ 5), fun _ => ho,
    (by decide : (0 : BitVec 6).toNat ≤ 62), by nofun, by nofun, by nofun, fun _ => h, by nofun⟩
    (fun i => .inl (by revert i; show ∀ i, State.reset.cacheAt i = _; decide)) (by rintro (h | h) <;> cases h)

/-- What the statements about every step assume: a step of the host and one of the core. -/
theorem witness_InvariantKeptByStep :
    MachineInv rgbNext ∧ (∃ t, step rgbNext = .next t) ∧
    MachineInv { rgbNext with moves := [.reset] } ∧ ∃ t, step { rgbNext with moves := [.reset] } = .next t :=
  ⟨rgbNext_inv, ⟨_, rfl⟩, machineInv_of (by decide) (by decide) (by decide), ⟨_, rfl⟩⟩

theorem witness_NoFaultFromTheInvariant : MachineInv rgbNext ∧ rgbNext.moves = [] := ⟨rgbNext_inv, rfl⟩

theorem witness_ParametersNeverChange : ∃ t, step rgbNext = .next t := ⟨_, rfl⟩

theorem witness_InputChangesOnlyByTheHost :
    let s := { State.reset with moves := [.writeIn 0 1] }
    ∃ t, step s = .next t ∧ t.inMem ≠ s.inMem := ⟨_, rfl, by decide⟩

theorem witness_ConfigurationHoldsWhileBusy :
    rgbNext.phase ≠ .idle ∧ (∀ rest, rgbNext.moves ≠ .reset :: rest) ∧ (∃ t, step rgbNext = .next t) ∧
      rgbNext.phase ≠ .hdr := ⟨by decide, by nofun, ⟨_, rfl⟩, by decide⟩

/-- A write of a register that is not `CTRL`, while idle. -/
theorem witness_StatusStaysUntilTheNextCommand :
    let s := writing State.reset 0x0C 5
    s.phase = .idle ∧ (∀ rest, s.moves ≠ .reset :: rest) ∧
      (∀ w rest, s.moves ≠ .csrWrite s.params.csrBase .word w :: rest) ∧ ∃ t, step s = .next t := by
  refine ⟨rfl, by nofun, fun w rest h => ?_, ⟨_, rfl⟩⟩
  injection h with h _
  injection h with h _ _
  exact absurd h (by decide)

/-- A step that goes on, one that ends with success, one that ends with an error. -/
theorem witness_CommandEndsWithDoneOrErr :
    (MachineInv rgbNext ∧ rgbNext.moves = [] ∧ rgbNext.phase ≠ .idle ∧ ∃ t, step rgbNext = .next t ∧ t.phase = .loop) ∧
    (MachineInv complete ∧ ∃ t, step complete = .next t ∧ t.done = true) ∧
    MachineInv (runState 8 1) ∧ ∃ t, step (runState 8 1) = .next t ∧ t.err = true :=
  ⟨⟨rgbNext_inv, rfl, by decide, _, rfl, rfl⟩, ⟨complete_inv, _, rfl, rfl⟩, runState_inv.2.1, _, rfl, rfl⟩

/-- An error of each command, and one at a command's start. -/
theorem witness_CommandsRaiseTheirOwnErrors :
    (∀ cmd ∈ [Command.parseHeader, .decode], MachineInv (headerState cmd []) ∧ (headerState cmd []).moves = [] ∧
      (headerState cmd []).phase ≠ .idle ∧ ∃ t, step (headerState cmd []) = .next t ∧ t.err = true) ∧
    (MachineInv (decodingState .four black []) ∧ (decodingState .four black []).cmd = .decodeWithDescriptor ∧
      ∃ t, step (decodingState .four black []) = .next t ∧ t.err = true) ∧
    (onePixel 3).phase = .idle ∧ ∃ t, exec .decodeWithDescriptor (onePixel 3) = .next t ∧ t.err = true := by
  refine ⟨fun cmd hc => ⟨header_inv cmd ?_ [] (by decide +revert) (by decide +revert), rfl, by nofun, _, rfl, rfl⟩,
    ⟨guard_inv, rfl, _, rfl, rfl⟩, rfl, _, rfl, rfl⟩
  rintro rfl
  simp at hc

/-- A step of the loop, a repetition, and a step of no decode. -/
theorem witness_OutputWrittenOnlyAtTheCursor :
    (MachineInv rgbNext ∧ rgbNext.moves = [] ∧ rgbNext.decoding ∧ ∃ t, step rgbNext = .next t) ∧
    (MachineInv (runState 4 2) ∧ (runState 4 2).decoding ∧ ∃ t, step (runState 4 2) = .next t) ∧
    MachineInv (headerState .decode (header 0x66 3 0)) ∧ ¬(headerState .decode (header 0x66 3 0)).decoding ∧
      ∃ t, step (headerState .decode (header 0x66 3 0)) = .next t :=
  ⟨⟨rgbNext_inv, rfl, .inl rfl, _, rfl⟩, ⟨runState_inv.1, .inr rfl, _, rfl⟩,
    header_inv _ (by decide) _ (by decide) (by decide), by decide, _, rfl⟩

theorem witness_ByteCursorOnlyAdvances :
    MachineInv rgbNext ∧ rgbNext.moves = [] ∧ rgbNext.tokenDue ∧ ∃ t, step rgbNext = .next t ∧ t.pc = 4 :=
  ⟨rgbNext_inv, rfl, by decide, _, rfl, rfl⟩

theorem witness_EveryCommandEnds : MachineInv rgbNext ∧ rgbNext.moves = [] ∧ rgbNext.phase ≠ .idle :=
  ⟨rgbNext_inv, rfl, by decide⟩

/-- An RGB token and a run of one: the two pixels of the image, the padding exactly after them. -/
theorem witness_ConformingStreamDecodes :
    let s := decodingState .four black [0xFE, 1, 2, 3, 0xC0]
    let tokens := [Instr.rgb 1 2 3, .run 0]
    MachineInv s ∧ s.moves = [] ∧ s.phase = .loop ∧ (∀ i ∈ tokens, i.isToken = true ∧ i.wellFormed = true) ∧
      s.outCursor.toNat + streamPixels tokens * s.ch.count = s.decodedSize ∧ s.holds s.pc.toNat (streamBytes tokens) ∧
      s.pc.toNat + (streamBytes tokens).length + s.params.padLen ≤ s.inLen.toNat :=
  ⟨machineInv_of (by decide) (by decide) (by decide), rfl, rfl, by decide, by decide, by decide, by decide⟩

/-- Two decodes that differ in an OUT byte at the pixel cursor. -/
theorem witness_EarlierOutputNeverReachesTheCore :
    SameDecode rgbNext { rgbNext with outMem := [(0, 9)] } ∧ Memory.wf rgbNext.outMem ∧ Memory.wf [(0, (9 : Byte))] ∧
      rgbNext.moves = [] ∧ ∃ t, Host.Core.run core 1 rgbNext = .next t :=
  ⟨⟨rfl, by decide⟩, by decide, by decide, rfl, _, rfl⟩

/-- The state after reset, and one that an earlier command left behind. -/
theorem witness_EarlierDecodeNeverReachesTheNext :
    let s₁ := onePixel 4
    let s₂ := { s₁ with px := ⟨1, 2, 3, 4⟩, cache := Vector.replicate 64 ⟨5, 6, 7, 8⟩, pc := 9, outCursor := 8, err := true,
                        code := 5, runLeft := 3, outMem := [(0, 9)] }
    s₁.canLaunch ∧ s₂.phase = .idle ∧ s₂.inLen = s₁.inLen ∧ s₂.outLen = s₁.outLen ∧ s₂.start = s₁.start ∧
      SameDescriptor s₁ s₂ ∧ s₂.inMem = s₁.inMem ∧ s₂.params = s₁.params ∧ s₂.moves = s₁.moves ∧ s₁.width ≠ 0 ∧
      s₁.height ≠ 0 ∧
      s₁.width.toNat * s₁.height.toNat * (if s₁.mode.getLsbD 0 then 4 else 3) ≤ s₁.outLen.toNat := by decide

end Sys2Proof.Tests
end

section
/-! PROOFS. The scope (00_scope.md): the parameters stay as they are. -/

namespace Sys2Proof.Machine

/-- A write of a register leaves the parameters alone: none of them is a register of the block. -/
@[simp] theorem setReg_params (s : State) (r : CsrReg) (v : Word32) : (s.setReg r v).params = s.params := by
  cases r <;> rfl

/-- A next state that answers a move of the host has the parameters of the state before. The answer is a variable with an
equation, because a command's answer is the `exec` of that command. -/
theorem hostAnswer_params {s t : State} {m : HostMove} {o : Out} (h : HostAnswer s m o) (ho : o = .next t) :
    t.params = s.params := by
  cases h
  case core hc => exact (coreMove_frame (coreMove_of_next (hc.trans ho))).params
  case command hi => exact (command_frame hi ho).1.params
  case refusal => cases ho
  case csrSet =>
    cases ho
    exact setReg_params ..
  case reset | csrRead | csrIgnored | writeIn | writeOut | readOut =>
    cases ho
    rfl

/-- Settles O48: the step is the core's, whose frame has the parameters, or an answer to the oldest move of the host. -/
theorem parametersNeverChange : Obligations.ParametersNeverChange := by
  intro s t h
  cases hm : s.moves with
  | nil =>
    rw [step_core hm] at h
    exact (coreMove_frame (coreMove_of_next h)).params
  | cons m rest =>
    rw [step_host hm] at h
    exact (hostAnswer_params (hostStep_cases m _) h :)

end Sys2Proof.Machine
end

section
/-! PROOFS. The state (10_state.md): what a step that answers a next state has done, said once for the invariants. -/

namespace Sys2Proof.Machine

/-- A step that answers a next state is a move of the core, or an answer to the oldest move of the host, which it takes off
the list. -/
theorem step_next {s t : State} (h : step s = .next t) :
    CoreMove s t ∨ ∃ m rest o, s.moves = m :: rest ∧ HostAnswer { s with moves := rest } m o ∧ o = .next t := by
  cases hm : s.moves with
  | nil => exact .inl (coreMove_of_next (step_core hm ▸ h))
  | cons m rest => exact .inr ⟨m, rest, _, rfl, hostStep_cases m _, step_host hm ▸ h⟩

/-- Only the header parse writes the descriptor registers. -/
theorem coreMove_descriptor {s t : State} (h : CoreMove s t) (hp : s.phase ≠ .hdr) : SameDescriptor s t := by
  cases h
  case headerDone hph _ => exact absurd hph hp
  all_goals exact ⟨rfl, rfl, rfl⟩

/-- The core writes neither the lengths nor `START`, and the descriptor only in the header parse. -/
theorem coreMove_configuration {s t : State} (h : CoreMove s t) :
    t.inLen = s.inLen ∧ t.outLen = s.outLen ∧ t.start = s.start ∧ (s.phase ≠ .hdr → SameDescriptor s t) :=
  have hf := coreMove_frame h
  ⟨hf.inLen, hf.outLen, hf.start, coreMove_descriptor h⟩

/-- In IDLE the core only waits. -/
theorem coreMove_idle {s t : State} (h : CoreMove s t) (hp : s.phase = .idle) : t = s := by
  cases h
  case wait => rfl
  case headerError hph _ | headerDone hph _ | loopEnd hph _ | guard hph _ _ | runEnd hph _ | repetition hph _ _ =>
    cases hp.symm.trans hph
  case short hdue _ | token hdue _ _ | runToken hdue _ _ _ => cases hp.symm.trans hdue.1

/-- A command start that answers a next state is ignored, or does its work in an idle machine whose buffers are apart. -/
theorem launch_next {c : Command} {body : State → State} {s t : State} (h : launch c body s = .next t) :
    t = s ∨ (s.phase = .idle ∧ s.buffersOverlap = false ∧ t = body (s.beginCommand c)) := by
  rw [launch_eq] at h
  split at h
  · cases h
    exact .inl rfl
  · rename_i hp
    split at h <;> cases h
    rename_i ho
    exact .inr ⟨not_not.1 hp, by simpa using ho, rfl⟩

/-- What a command start that is not ignored does: a header parse is due, or the decode is entered at `START`. -/
theorem command_next {i : Instr} (hi : i = .parseHeader ∨ i = .decode ∨ i = .decodeWithDescriptor) {s t : State}
    (h : exec i s = .next t) :
    t = s ∨ (s.phase = .idle ∧ s.buffersOverlap = false ∧
      ((∃ c, c ≠ .decodeWithDescriptor ∧ t = { s.beginCommand c with phase := .hdr }) ∨
        t = (s.beginCommand .decodeWithDescriptor).decodeEntry s.start)) := by
  rcases hi with rfl | rfl | rfl
  · exact (launch_next (c := .parseHeader) (body := fun u => { u with phase := .hdr }) h).imp_right
      fun ⟨hp, ho, ht⟩ => ⟨hp, ho, .inl ⟨.parseHeader, nofun, ht⟩⟩
  · exact (launch_next (c := .decode) (body := fun u => { u with phase := .hdr }) h).imp_right
      fun ⟨hp, ho, ht⟩ => ⟨hp, ho, .inl ⟨.decode, nofun, ht⟩⟩
  · exact (launch_next (c := .decodeWithDescriptor) (body := fun u => u.decodeEntry u.start) h).imp_right
      fun ⟨hp, ho, ht⟩ => ⟨hp, ho, .inr ht⟩

/-- What an access of the host to an idle machine leaves alone: the core's registers, the status and the parameters. -/
structure SameCore (s t : State) : Prop where
  px : t.px = s.px
  cache : t.cache = s.cache
  pc : t.pc = s.pc
  outCursor : t.outCursor = s.outCursor
  runLeft : t.runLeft = s.runLeft
  phase : t.phase = s.phase
  done : t.done = s.done
  err : t.err = s.err
  code : t.code = s.code
  params : t.params = s.params

theorem SameCore.refl (s : State) : SameCore s s := ⟨rfl, rfl, rfl, rfl, rfl, rfl, rfl, rfl, rfl, rfl⟩

/-- A write of a configuration register leaves the core's registers and the spaces alone. -/
theorem setReg_frame (s : State) (r : CsrReg) (v : Word32) :
    SameCore s (s.setReg r v) ∧ (s.setReg r v).inMem = s.inMem ∧ (s.setReg r v).outMem = s.outMem := by
  cases r <;> exact ⟨⟨rfl, rfl, rfl, rfl, rfl, rfl, rfl, rfl, rfl, rfl⟩, rfl, rfl⟩

end Sys2Proof.Machine
end

section
/-! PROOFS. The invariant of the machine (10_state.md): every step of the host and of the core keeps it. -/

namespace Sys2Proof.Machine

/-! The invariant in parts: what holds in every phase, what holds of the status while a command runs, and the invariant
put together again from them, phase by phase. -/

/-- The clauses of the invariant that no phase, status bit or latch has a part in. -/
structure StorageInv (s : State) : Prop where
  legal : s.params.legal
  inWf : Memory.wf s.inMem
  outWf : Memory.wf s.outMem
  runBound : s.runLeft.toNat ≤ 62
  cached : ∀ i : BitVec 6, s.cacheAt i = Pixel.transparentBlack ∨ s.params.hash (s.cacheAt i) = i

/-- The status of a command under way: no bit and no code set, OUT not acquired, the buffers apart. -/
structure StatusClear (s : State) : Prop where
  done : s.done = false
  err : s.err = false
  code : s.code = 0
  acquired : s.acquired = false
  apart : s.buffersOverlap = false

theorem MachineInv.storage {s : State} (h : MachineInv s) : StorageInv s :=
  ⟨h.legal, h.inWf, h.outWf, h.runBound, h.cached⟩

theorem MachineInv.clear {s : State} (h : MachineInv s) (hp : s.phase ≠ .idle) : StatusClear s := by
  obtain ⟨hdone, herr⟩ := h.busyClear ((busy_iff s).2 hp)
  refine ⟨hdone, herr, ?_, ?_, h.apart ((busy_iff s).2 hp)⟩
  · by_contra hc
    simp [h.errCode.2 hc] at herr
  · by_contra ha
    exact hp (h.acquiredIdle (by simpa using ha))

/-- The invariant while no command runs. -/
theorem machineInv_of_idle {s : State} (hs : StorageInv s) (hp : s.phase = .idle)
    (hboth : ¬(s.done = true ∧ s.err = true)) (hcode : s.err = true ↔ s.code ≠ 0) (h5 : s.code.toNat ≤ 5) :
    MachineInv s where
  legal := hs.legal
  inWf := hs.inWf
  outWf := hs.outWf
  notBoth := hboth
  busyClear := by simp [busy_iff, hp]
  errCode := hcode
  codeLegal := h5
  apart := by simp [busy_iff, hp]
  runBound := hs.runBound
  runIdle := by simp [hp]
  runBusy := by simp [hp]
  runFits := by simp [hp]
  header := by simp [hp]
  acquiredIdle := fun _ => hp
  cached := hs.cached
  decode := by simp [hp]

/-- The invariant while a command runs. -/
theorem machineInv_of_clear {s : State} (hs : StorageInv s) (hc : StatusClear s)
    (hheader : s.phase = .hdr → s.cmd ≠ .decodeWithDescriptor) (hloop : s.phase = .loop → s.runLeft = 0)
    (hrun : s.phase = .run → s.runLeft ≠ 0 ∧ (s.outCursor.toNat = s.decodedSize → s.runLeft.toNat ≤ 61))
    (hdecode : s.decoding → DecodeInv s) : MachineInv s where
  legal := hs.legal
  inWf := hs.inWf
  outWf := hs.outWf
  notBoth := by simp [hc.done]
  busyClear := fun _ => ⟨hc.done, hc.err⟩
  errCode := by simp [hc.err, hc.code]
  codeLegal := by simp [hc.code]
  apart := fun _ => hc.apart
  runBound := hs.runBound
  runIdle := hloop
  runBusy := fun h => (hrun h).1
  runFits := fun h => (hrun h).2
  header := hheader
  acquiredIdle := by simp [hc.acquired]
  cached := hs.cached
  decode := hdecode

/-! The ends of a command and its start. -/

/-- A command under way that raises an error ends in the invariant. -/
theorem raise_inv {s : State} (hs : StorageInv s) (hc : StatusClear s) (e : ErrorKind) : MachineInv (s.raise e) := by
  have he : e.code ≠ 0 ∧ e.code.toNat ≤ 5 := by cases e <;> decide
  exact machineInv_of_idle ⟨hs.legal, hs.inWf, hs.outWf, hs.runBound, hs.cached⟩ rfl (by simp [hc.done])
    (iff_of_true rfl he.1) he.2

/-- A command under way that finishes ends in the invariant. -/
theorem finish_inv {s : State} (hs : StorageInv s) (hc : StatusClear s) : MachineInv s.finish :=
  machineInv_of_idle ⟨hs.legal, hs.inWf, hs.outWf, hs.runBound, hs.cached⟩ rfl (by simp [hc.err])
    (by simp [hc.err, hc.code]) (by simp [hc.code])

/-- The initialised decode stands at its entry with no pixel written (R120, R122). -/
theorem initDecode_decodeInv {s : State} {p : Word32} (hcmd : s.cmd ≠ .parseHeader) (hp : p = s.entry)
    (hnz : ¬(s.width = 0 ∨ s.height = 0)) (hfits : (s.loadDecode p).decodedSize ≤ s.outLen.toNat) :
    DecodeInv (s.loadDecode p).initDecode where
  command := hcmd
  channels := rfl
  size := rfl
  nonzero := not_or.1 hnz
  fits := hfits
  cursor := Nat.zero_le _
  aligned := Nat.dvd_zero _
  fetch := .inl hp
  alpha := fun _ _ => rfl

/-- A decode entered at its own start keeps the invariant, at each exit and past them. -/
theorem decodeEntry_inv {s : State} {p : Word32} (hs : StorageInv s) (hc : StatusClear s) (hcmd : s.cmd ≠ .parseHeader)
    (hp : p = s.entry) : MachineInv (s.decodeEntry p) := by
  have hsl : StorageInv (s.loadDecode p) := ⟨hs.legal, hs.inWf, hs.outWf, Nat.zero_le _, hs.cached⟩
  have hcl : StatusClear (s.loadDecode p) := ⟨hc.done, hc.err, hc.code, hc.acquired, hc.apart⟩
  rcases decodeEntry_cases p s with ⟨_, e⟩ | ⟨_, _, e⟩ | ⟨hnz, hfits, e⟩ <;> rw [e]
  · exact finish_inv hsl hcl
  · exact raise_inv hsl hcl _
  · exact machineInv_of_clear
      ⟨hsl.legal, hsl.inWf, hsl.outWf, hsl.runBound, fun i => .inl (initDecode_cacheAt _ i)⟩
      ⟨hcl.done, hcl.err, hcl.code, hcl.acquired, hcl.apart⟩ nofun (fun _ => rfl) nofun
      fun _ => initDecode_decodeInv hcmd hp hnz hfits

/-- A header that passes keeps the invariant: the command ends, or the decode is entered at offset 14. -/
theorem acceptHeader_inv {s : State} (hs : StorageInv s) (hc : StatusClear s) (hcmd : s.cmd ≠ .decodeWithDescriptor)
    (w hgt : Word32) (mode : BitVec 2) : MachineInv (s.acceptHeader w hgt mode) := by
  have hsd : StorageInv (s.setDescriptor w hgt mode) := ⟨hs.legal, hs.inWf, hs.outWf, hs.runBound, hs.cached⟩
  have hcd : StatusClear (s.setDescriptor w hgt mode) := ⟨hc.done, hc.err, hc.code, hc.acquired, hc.apart⟩
  unfold State.acceptHeader
  cases h : s.cmd with
  | parseHeader => exact finish_inv hsd hcd
  | decode => exact decodeEntry_inv hsd hcd (by simp [h]) (by simp [State.entry, h, headerLength])
  | decodeWithDescriptor => exact absurd h hcmd

/-- A command start keeps the invariant. -/
theorem command_inv {i : Instr} (hi : i = .parseHeader ∨ i = .decode ∨ i = .decodeWithDescriptor) {s t : State}
    (hs : MachineInv s) (h : exec i s = .next t) : MachineInv t := by
  obtain rfl | ⟨-, ho, ⟨c, hc, rfl⟩ | rfl⟩ := command_next hi h
  · exact hs
  · exact machineInv_of_clear ⟨hs.legal, hs.inWf, hs.outWf, hs.runBound, hs.cached⟩ ⟨rfl, rfl, rfl, rfl, ho⟩
      (fun _ => hc) nofun nofun (by rintro (h | h) <;> cases h)
  · exact decodeEntry_inv ⟨hs.legal, hs.inWf, hs.outWf, hs.runBound, hs.cached⟩ ⟨rfl, rfl, rfl, rfl, ho⟩ nofun rfl

/-! The tokens and the repetitions of a run. -/

/-- Short of the end of the image there is room below `decoded_size` for a whole pixel (R25, R123). -/
theorem DecodeInv.pixel_fits {s : State} (hd : DecodeInv s) (hne : s.outCursor.toNat ≠ s.decodedSize) :
    s.outCursor.toNat + s.ch.count ≤ s.decodedSize := by
  have hmod : s.outCursor.toNat ≡ s.decodedSize [MOD s.ch.count] :=
    (Nat.modEq_zero_iff_dvd.2 hd.aligned).trans (Nat.modEq_zero_iff_dvd.2 ⟨_, hd.size.trans (Nat.mul_comm _ _)⟩).symm
  exact hmod.add_le_of_lt (lt_of_le_of_ne hd.cursor hne)

/-- With `FORCED_255` and three channels a token's pixel is opaque (R22, R127). -/
theorem settleAlpha_opaque {s : State} (q : Pixel) (hf : s.params.alphaRgb = .forced255) (hc : s.ch = .three) :
    (s.settleAlpha q).a = 255 := by simp [State.settleAlpha, hf, hc]

/-- A pixel written at the cursor leaves OUT in canonical form. -/
theorem emit_wf {s : State} (hw : Memory.wf s.outMem) (hroom : s.roomForPixel) (q : Pixel) :
    Memory.wf (Memory.writeBytes s.outMem s.outCursor.toNat (outputBytes s.ch q)) := by
  have hl := s.outLen.isLt
  exact Memory.wf_writeBytes hw (by rw [outputBytes_length]; omega)

/-- A token's write-back keeps every entry transparent black or at its own hash (R151). -/
theorem tokenDone_cached {s : State} (hs : StorageInv s) (len : Nat) (q : Pixel) (i : BitVec 6) :
    (s.tokenDone len q).cacheAt i = Pixel.transparentBlack ∨ s.params.hash ((s.tokenDone len q).cacheAt i) = i := by
  by_cases hi : i = s.params.hash (s.settleAlpha q)
  · subst hi
    exact .inr (congrArg _ (tokenDone_cacheAt_same len q s))
  · rw [tokenDone_cacheAt_other hi]
    exact hs.cached i

/-- A non-run token that is due keeps the decode invariant. -/
theorem tokenDone_decodeInv {s : State} (hd : DecodeInv s) (hdue : s.tokenDue) (hroom : s.roomForPixel) {len : Nat}
    (hin : s.pc.toNat + len ≤ s.inLen.toNat) (q : Pixel) : DecodeInv (s.tokenDone len q) := by
  have hadv : (s.tokenDone len q).outCursor.toNat = s.outCursor.toNat + s.ch.count := outCursor_advance hroom
  have hpc : (s.tokenDone len q).pc.toNat ≤ s.inLen.toNat := by
    rw [tokenDone_pc, BitVec.toNat_add, BitVec.toNat_ofNat]
    have := s.inLen.isLt
    omega
  exact { hd with
    cursor := hadv.trans_le (hd.pixel_fits hdue.2.1)
    aligned := hadv ▸ hd.aligned.add (Nat.dvd_refl _)
    fetch := .inr hpc
    alpha := settleAlpha_opaque q }

/-- A run token that is due keeps the decode invariant. -/
theorem runStarted_decodeInv {s : State} (hd : DecodeInv s) (hin : s.pc.toNat + 1 ≤ s.inLen.toNat) (l : BitVec 6) :
    DecodeInv (s.runStarted l) :=
  { hd with
    fetch := .inr (by
      rw [runStarted_pc, BitVec.toNat_add]
      exact (Nat.mod_le _ _).trans hin) }

/-- A repetition that fits keeps the decode invariant. -/
theorem repeated_decodeInv {s : State} (hd : DecodeInv s) (hfit : s.outCursor.toNat + s.ch.count ≤ s.decodedSize)
    (hroom : s.roomForPixel) : DecodeInv s.repeated :=
  have hadv : s.repeated.outCursor.toNat = s.outCursor.toNat + s.ch.count := outCursor_advance hroom
  { hd with
    cursor := hadv.trans_le hfit
    aligned := hadv ▸ hd.aligned.add (Nat.dvd_refl _) }

/-- The repetitions of a legal run, counted without wrapping (R171, R27). -/
theorem runCount_toNat {l : BitVec 6} (hl : l.toNat ≤ 61) : (runCount l).toNat = l.toNat + 1 := by
  have h1 : (1 : BitVec 6).toNat = 1 := rfl
  rw [runCount, BitVec.toNat_add, h1]
  omega

/-- A run with repetitions left has one less after a repetition. -/
theorem runLeft_pred_toNat {r : BitVec 6} (hr : r ≠ 0) : (r - 1).toNat = r.toNat - 1 := by
  have h0 : r.toNat ≠ 0 := fun h => hr (BitVec.eq_of_toNat_eq h)
  bv_omega

/-- A step of the core keeps the invariant. -/
theorem coreMove_inv {s t : State} (hi : MachineInv s) (h : CoreMove s t) : MachineInv t := by
  have hs := hi.storage
  cases h
  case wait => exact hi
  case headerError e hp _ => exact raise_inv hs (hi.clear (by simp [hp])) e
  case headerDone w hgt mode hp _ => exact acceptHeader_inv hs (hi.clear (by simp [hp])) (hi.header hp) w hgt mode
  case loopEnd hp _ => exact finish_inv hs (hi.clear (by simp [hp]))
  case guard hp _ _ => exact raise_inv hs (hi.clear (by simp [hp])) _
  case short hdue _ => exact raise_inv hs (hi.clear (by simp [hdue.1])) _
  case runEnd hp _ => exact raise_inv hs (hi.clear (by simp [hp])) _
  case token q hdue hin hroom =>
    have hc := hi.clear (by simp [hdue.1])
    exact machineInv_of_clear
      ⟨hs.legal, hs.inWf, emit_wf hs.outWf hroom _, hs.runBound, tokenDone_cached hs _ q⟩
      ⟨hc.done, hc.err, hc.code, hc.acquired, hc.apart⟩ nofun (fun _ => hi.runIdle hdue.1) nofun
      fun _ => tokenDone_decodeInv (hi.decode (.inl hdue.1)) hdue hroom hin q
  case runToken l hdue hl _ hin =>
    have hc := hi.clear (by simp [hdue.1])
    have hn := runCount_toNat hl
    exact machineInv_of_clear
      ⟨hs.legal, hs.inWf, hs.outWf, by rw [runStarted_runLeft]; omega, hs.cached⟩
      ⟨hc.done, hc.err, hc.code, hc.acquired, hc.apart⟩ nofun nofun
      (fun _ => ⟨fun h0 => by rw [runStarted_runLeft] at h0; simp [h0] at hn, fun he => absurd he hdue.2.1⟩)
      fun _ => runStarted_decodeInv (hi.decode (.inl hdue.1)) hin l
  case repetition hp hfit hroom =>
    have hc := hi.clear (by simp [hp])
    have hn := runLeft_pred_toNat (hi.runBusy hp)
    have hb := hi.runBound
    have hloop : s.repeated.phase = .loop ↔ s.runLeft - 1 = 0 := by simp
    exact machineInv_of_clear
      ⟨hs.legal, hs.inWf, emit_wf hs.outWf hroom _, by rw [repeated_runLeft]; omega, hs.cached⟩
      ⟨hc.done, hc.err, hc.code, hc.acquired, hc.apart⟩ (by rw [repeated_phase]; split <;> nofun) hloop.1
      (fun hr => ⟨fun h0 => absurd ((hloop.2 h0).symm.trans hr) nofun, fun _ => by rw [repeated_runLeft]; omega⟩)
      fun _ => repeated_decodeInv (hi.decode (.inr hp)) hfit hroom

/-! The host's moves. -/

/-- The invariant does not see the moves to come, the host's answers and the draws; OUT may be acquired where it was or
while no command runs. -/
theorem hostSide_inv {s : State} (h : MachineInv s) (ms : List HostMove) (w : Word32) (n : Nat) {b : Bool}
    (hb : b = true → s.acquired = true ∨ s.phase = .idle) :
    MachineInv { s with moves := ms, hostData := w, draws := n, acquired := b } :=
  { h with
    acquiredIdle := fun ha => (hb ha).elim h.acquiredIdle id
    decode := fun hd => { h.decode hd with } }

/-- A change of the configuration or of the spaces while no command runs keeps the invariant. -/
theorem sameCore_inv {s t : State} (h : MachineInv s) (hp : s.phase = .idle) (hc : SameCore s t)
    (hin : Memory.wf t.inMem) (hout : Memory.wf t.outMem) : MachineInv t := by
  have hcache (i : BitVec 6) : t.cacheAt i = s.cacheAt i := by simp [State.cacheAt, hc.cache]
  have hs : StorageInv t :=
    { legal := hc.params ▸ h.legal
      inWf := hin
      outWf := hout
      runBound := hc.runLeft ▸ h.runBound
      cached := fun i => by rw [hcache, hc.params]; exact h.cached i }
  exact machineInv_of_idle hs (hc.phase.trans hp) (by rw [hc.done, hc.err]; exact h.notBoth)
    (by rw [hc.err, hc.code]; exact h.errCode) (hc.code ▸ h.codeLegal)

/-- The reset input gives a state with the invariant. -/
theorem assertReset_inv {s : State} (h : MachineInv s) : MachineInv s.assertReset :=
  machineInv_of_idle ⟨h.legal, h.inWf, h.outWf, Nat.zero_le _, fun i => .inl (initDecode_cacheAt s i)⟩ rfl nofun
    ⟨nofun, fun h0 => absurd rfl h0⟩ (Nat.zero_le _)

/-- A next state that answers a move of the host keeps the invariant. -/
theorem hostAnswer_inv {s t : State} {m : HostMove} {o : Out} (hi : MachineInv s) (h : HostAnswer s m o)
    (ho : o = .next t) : MachineInv t := by
  cases h
  case core hc => exact coreMove_inv hi (coreMove_of_next (hc.trans ho))
  case command hcmd => exact command_inv hcmd hi ho
  all_goals cases ho
  case reset => exact assertReset_inv hi
  case csrIgnored => exact hi
  case csrRead w n b hb => exact hostSide_inv hi s.moves w n fun h => (hb h).imp_right And.left
  case readOut w n => exact hostSide_inv hi s.moves w n .inl
  case csrSet v r hp =>
    obtain ⟨hc, hin, hout⟩ := setReg_frame s r v
    exact sameCore_inv hi hp hc (hin ▸ hi.inWf) (hout ▸ hi.outWf)
  case writeIn a v hp =>
    exact sameCore_inv hi hp ⟨rfl, rfl, rfl, rfl, rfl, rfl, rfl, rfl, rfl, rfl⟩
      (Memory.wf_write hi.inWf a.isLt v) hi.outWf
  case writeOut a v hp =>
    exact sameCore_inv hi hp ⟨rfl, rfl, rfl, rfl, rfl, rfl, rfl, rfl, rfl, rfl⟩
      hi.inWf (Memory.wf_write hi.outWf a.isLt v)

/-- Settles O46: a move of the core and an answer to a move of the host each keep the invariant. -/
theorem invariantKeptByStep : Obligations.InvariantKeptByStep := by
  intro s t hi h
  obtain hcore | ⟨m, rest, o, -, hans, ho⟩ := step_next h
  · exact coreMove_inv hi hcore
  · exact hostAnswer_inv (hostSide_inv hi rest s.hostData s.draws .inl) hans ho

end Sys2Proof.Machine
end

section
/-! PROOFS. The state (10_state.md): what a running command holds still, what stays between commands, and how a command
ends. -/

namespace Sys2Proof.Machine

/-- While a command runs no answer to the host but that of a reset changes the lengths and `START`, and none but that of a
header parse changes the descriptor. -/
theorem hostAnswer_configuration {s t : State} {m : HostMove} {o : Out} (hp : s.phase ≠ .idle) (hm : m ≠ .reset)
    (h : HostAnswer s m o) (ho : o = .next t) :
    t.inLen = s.inLen ∧ t.outLen = s.outLen ∧ t.start = s.start ∧ (s.phase ≠ .hdr → SameDescriptor s t) := by
  cases h
  case core hc => exact coreMove_configuration (coreMove_of_next (hc.trans ho))
  case reset => exact absurd rfl hm
  case refusal => cases ho
  case csrSet hidle | command hidle _ | writeIn hidle | writeOut hidle => exact absurd hidle hp
  case csrRead | csrIgnored | readOut =>
    cases ho
    exact ⟨rfl, rfl, rfl, fun _ => ⟨rfl, rfl, rfl⟩⟩

/-- Settles O50: the core never writes the lengths and `START`, and while busy the host's accesses set no register. -/
theorem configurationHoldsWhileBusy : Obligations.ConfigurationHoldsWhileBusy := by
  intro s t hp hreset h
  obtain hcore | ⟨m, rest, o, hm, hans, ho⟩ := step_next h
  · exact coreMove_configuration hcore
  · exact hostAnswer_configuration (s := { s with moves := rest }) hp (fun he => hreset rest (he ▸ hm)) hans ho

/-- In an idle machine every answer to the host but those of a reset and of a write of `CTRL` leaves the core's registers
and the status alone. -/
theorem hostAnswer_sameCore {s t : State} {m : HostMove} {o : Out} (hp : s.phase = .idle) (hm : m ≠ .reset)
    (hctrl : ∀ w, m ≠ .csrWrite s.params.csrBase .word w) (h : HostAnswer s m o) (ho : o = .next t) : SameCore s t := by
  cases h
  case core hc => exact coreMove_idle (coreMove_of_next (hc.trans ho)) hp ▸ .refl s
  case reset => exact absurd rfl hm
  case command => exact absurd rfl (hctrl _)
  case refusal => cases ho
  case csrSet r _ =>
    cases ho
    exact (setReg_frame s r _).1
  case csrRead | csrIgnored | writeIn | writeOut | readOut =>
    cases ho
    exact ⟨rfl, rfl, rfl, rfl, rfl, rfl, rfl, rfl, rfl, rfl⟩

/-- Settles O51: the idle core waits, and the host's accesses leave the core's registers alone. -/
theorem statusStaysUntilTheNextCommand : Obligations.StatusStaysUntilTheNextCommand := by
  intro s t hp hreset hctrl h
  have hc : SameCore s t := by
    obtain hcore | ⟨m, rest, o, hm, hans, ho⟩ := step_next h
    · exact coreMove_idle hcore hp ▸ .refl s
    · have hsame := hostAnswer_sameCore (s := { s with moves := rest }) hp (fun he => hreset rest (he ▸ hm))
        (fun w he => hctrl w rest (he ▸ hm)) hans ho
      exact { hsame with }
  exact ⟨hc.phase.trans hp, hc.done, hc.err, hc.code, ⟨hc.px, hc.cache⟩, hc.pc, hc.outCursor, hc.runLeft⟩

/-- A command under way that ends at the decode entry sets exactly one of `DONE` and `ERR`. -/
theorem decodeEntry_ended {s : State} {p : Word32} (hc : StatusClear s) (hp : (s.decodeEntry p).phase = .idle) :
    (s.decodeEntry p).ended := by
  refine ⟨hp, ?_⟩
  rcases decodeEntry_cases p s with ⟨_, e⟩ | ⟨_, _, e⟩ | ⟨_, _, e⟩ <;> rw [e] at hp ⊢
  · simp [hc.err]
  · simp [hc.done]
  · cases hp

/-- A header that passes and ends its command sets exactly one of `DONE` and `ERR`. -/
theorem acceptHeader_ended {s : State} {w hgt : Word32} {mode : BitVec 2} (hc : StatusClear s)
    (hp : (s.acceptHeader w hgt mode).phase = .idle) : (s.acceptHeader w hgt mode).ended := by
  have hcd : StatusClear (s.setDescriptor w hgt mode) := ⟨hc.done, hc.err, hc.code, hc.acquired, hc.apart⟩
  unfold State.acceptHeader at hp ⊢
  cases h : s.cmd <;> rw [h] at hp
  case parseHeader => exact ⟨rfl, by simp [hc.err]⟩
  all_goals exact decodeEntry_ended hcd hp

/-- A move of the core that ends the command sets exactly one of `DONE` and `ERR`. -/
theorem coreMove_ended {s t : State} (hc : StatusClear s) (hp : s.phase ≠ .idle) (h : CoreMove s t)
    (ht : t.phase = .idle) : t.ended := by
  cases h
  case wait => exact absurd ht hp
  case headerDone => exact acceptHeader_ended hc ht
  case loopEnd => exact ⟨rfl, by simp [hc.err]⟩
  case headerError | guard | short | runEnd => exact ⟨rfl, by simp [hc.done]⟩
  case token | runToken => cases ht
  case repetition =>
    rw [repeated_phase] at ht
    split at ht <;> cases ht

/-- Settles O52: every end of a command raises or finishes, and the invariant holds after the step, which ties the code to
`ERR` and keeps the status clear where the command goes on. -/
theorem commandEndsWithDoneOrErr : Obligations.CommandEndsWithDoneOrErr := by
  intro s t hi hm hp h
  have hmove := coreMove_of_next (step_core hm ▸ h)
  have ht := coreMove_inv hi hmove
  split
  · rename_i hidle
    exact ⟨(coreMove_ended (hi.clear hp) hp hmove hidle).2, ht.errCode⟩
  · rename_i hbusy
    obtain ⟨hdone, herr, hcode, -, -⟩ := ht.clear hbusy
    exact ⟨hdone, herr, hcode⟩

end Sys2Proof.Machine
end

section
/-! PROOFS. The register block (10_state.md): reads, writes, refused accesses and reset values. -/

namespace Sys2Proof.Machine

/-! What a read and a write of a register do, idle and busy. -/

/-- A register that shows no progress, and every register while no command runs, reads its value. -/
theorem readReg_value {s : State} {r : CsrReg} (h : r.isProgress = false ∨ s.phase = .idle) :
    readReg r s = .next { s with hostData := s.csrValue r, acquired := s.acquiredBy r } := by
  have hdraw : (s.busy && r.isProgress) = false := by
    rcases h with hr | hp
    · simp [hr]
    · simp [(not_busy_iff s).2 hp]
  simp [readReg, hdraw]

/-- While a command runs a progress register reads as a draw. -/
theorem readReg_drawn {s : State} (hp : s.phase ≠ .idle) {r : CsrReg} (hr : r.isProgress = true) :
    readReg r s = .next { s with hostData := r.drawn (Config.freeWord s.draws), draws := s.draws + 1 } := by
  simp [readReg, (busy_iff s).2 hp, hr]

/-- A draw for `RUN_LEFT` is below 64: its upper bits read as 0 (R40). -/
theorem drawn_runLeft_lt (w : Word32) : (CsrReg.runLeft.drawn w).toNat < 64 := by
  have := (w.extractLsb' 0 6).isLt
  simp only [CsrReg.drawn, BitVec.toNat_setWidth]
  omega

/-- While no command runs a write of a register other than `CTRL` sets it. -/
theorem writeReg_idle {s : State} (hp : s.phase = .idle) {r : CsrReg} (hr : r ≠ .ctrl) (v : Word32) :
    writeReg r v s = .next (s.setReg r v) := by
  cases r
  case ctrl => exact absurd rfl hr
  all_goals simp [writeReg, (not_busy_iff s).2 hp]

/-- While a command runs no write of a register has an effect. -/
theorem writeReg_busy {s : State} (hp : s.phase ≠ .idle) (r : CsrReg) (v : Word32) : writeReg r v s = .next s := by
  simp [writeReg, (busy_iff s).2 hp]

/-- An access of the block of another width, or at no multiple of 4, is refused. -/
theorem withCsr_refused {off : Nat} {width : AccessWidth} (h : width ≠ .word ∨ off % 4 ≠ 0) (s : State)
    (access : CsrReg → State → Out) :
    withCsr (s.params.csrBase + off) width s access = .refused .csrAccess := by
  have hne : ¬(width = .word ∧ off % 4 = 0) := by tauto
  simp [withCsr, hne]

/-- Only a read at the offset of `STATUS` acquires, and only while no command runs. -/
theorem acquiredBy_csrAt (s : State) (off : Nat) :
    s.acquiredBy (csrAt off) = if off = 0x04 ∧ s.phase = .idle then true else s.acquired := by
  by_cases h4 : off = 0x04
  · subst h4
    split
    · rename_i h
      exact acquiredBy_status h.2
    · rename_i hp
      simp [State.acquiredBy, (busy_iff s).2 (by simpa using hp)]
  · rw [if_neg (by simp [h4])]
    exact acquiredBy_other s fun h => h4 (csrAt_eq_status h)

/-- The register values do not depend on the host's moves to come. -/
@[simp] theorem csrValue_moves (s : State) (ms : List HostMove) (r : CsrReg) :
    ({ s with moves := ms } : State).csrValue r = s.csrValue r := by cases r <;> rfl

/-- An aligned 32-bit read that draws nothing gives the register's value, acquires at `STATUS` while no command runs, and
changes nothing else. -/
theorem step_csrRead_value {s : State} {rest : List HostMove} {off : Nat}
    (hm : s.moves = .csrRead (s.params.csrBase + off) .word :: rest) (h4 : off % 4 = 0)
    (h : (csrAt off).isProgress = false ∨ s.phase = .idle) :
    step s = .next { s with
      moves := rest, hostData := s.csrValue (csrAt off)
      acquired := if off = 0x04 ∧ s.phase = .idle then true else s.acquired } := by
  rw [step_csrRead hm h4, readReg_value (s := { s with moves := rest }) h, acquiredBy_csrAt, csrValue_moves]

/-- The offsets of the progress registers are multiples of 4 and not that of `STATUS`. -/
theorem progress_offset {off : Nat} (h : off ∈ [0x24, 0x28, 0x2C, 0x30] ∨ ∃ i : BitVec 6, off = 0x100 + 4 * i.toNat) :
    off % 4 = 0 ∧ off ≠ 0x04 ∧ (csrAt off).isProgress = true := by
  rcases h with h | ⟨i, rfl⟩
  · revert off
    decide
  · exact ⟨by omega, by omega, by rw [csrAt_cache]; rfl⟩

/-! The words that the registers show, as numbers. -/

/-- `STATUS` shows BUSY, DONE and ERR in bits 0 to 2 (R32). -/
theorem statusWord_eq (s : State) :
    s.statusWord =
      BitVec.ofNat 32 ((if s.phase = .idle then 0 else 1) + (if s.done then 2 else 0) + (if s.err then 4 else 0)) := by
  unfold State.statusWord
  by_cases hp : s.phase = .idle
  · rw [(not_busy_iff s).2 hp]
    cases s.done <;> cases s.err <;> simp [hp]
  · rw [(busy_iff s).2 hp]
    cases s.done <;> cases s.err <;> simp [hp]

/-- `PIXEL` and `CACHE[i]` show a pixel with r in the low byte (R38). -/
theorem packPixel_eq (q : Pixel) : packPixel q = BitVec.ofNat 32 (pixelNumber q) := by
  have hn : (packPixel q).toNat = pixelNumber q :=
    (bigEndian_toNat q.a q.b q.g q.r).trans (by unfold pixelNumber; omega)
  rw [← hn, BitVec.ofNat_toNat, BitVec.setWidth_eq]

/-! The statements. -/

/-- Settles O34: each of these registers shows no progress, and its word is the number in the statement. -/
theorem exactRegistersRead : Obligations.ExactRegistersRead := by
  intro s rest off v hm hv
  have key : off % 4 = 0 ∧ (csrAt off).isProgress = false ∧ s.csrValue (csrAt off) = BitVec.ofNat 32 v := by
    simp only [List.mem_cons, Prod.mk.injEq, List.not_mem_nil, or_false] at hv
    rcases hv with ⟨rfl, rfl⟩ | ⟨rfl, rfl⟩ | hv
    · exact ⟨rfl, rfl, rfl⟩
    · exact ⟨rfl, rfl, statusWord_eq s⟩
    · rcases hv with ⟨rfl, rfl⟩ | ⟨rfl, rfl⟩ | ⟨rfl, rfl⟩ | ⟨rfl, rfl⟩ | ⟨rfl, rfl⟩ | ⟨rfl, rfl⟩ | ⟨rfl, rfl⟩ <;>
        exact ⟨rfl, rfl, by simp [csrAt, State.csrValue, State.errorWord]⟩
  obtain ⟨h4, hexact, hval⟩ := key
  rw [step_csrRead_value hm h4 (.inl hexact), hval]

/-- Settles O35: while no command runs nothing is drawn, and each register's word is the number in the statement. -/
theorem progressRegistersReadWhenIdle : Obligations.ProgressRegistersReadWhenIdle := by
  intro s rest off v hm hp hv
  have key : (off ∈ [0x24, 0x28, 0x2C, 0x30] ∨ ∃ i : BitVec 6, off = 0x100 + 4 * i.toNat) ∧
      s.csrValue (csrAt off) = BitVec.ofNat 32 v := by
    simp only [List.mem_cons, Prod.mk.injEq, List.not_mem_nil, or_false] at hv
    obtain (⟨rfl, rfl⟩ | ⟨rfl, rfl⟩ | ⟨rfl, rfl⟩ | ⟨rfl, rfl⟩) | ⟨i, rfl, rfl⟩ := hv
    case inr => exact ⟨.inr ⟨i, rfl⟩, by rw [csrAt_cache]; exact packPixel_eq _⟩
    case inl.inr.inr.inl => exact ⟨.inl (by decide), packPixel_eq _⟩
    all_goals exact ⟨.inl (by decide), by simp [csrAt, State.csrValue]⟩
  obtain ⟨hoff, hval⟩ := key
  obtain ⟨h4, hne, -⟩ := progress_offset hoff
  rw [step_csrRead_value hm h4 (.inr hp), hval, if_neg fun h => hne h.1]

/-- Settles O36: the word is the draw, of which `RUN_LEFT` keeps six bits. -/
theorem progressRegistersAreDrawnWhenBusy : Obligations.ProgressRegistersAreDrawnWhenBusy := by
  intro s rest off hm hp hoff
  obtain ⟨h4, -, hprog⟩ := progress_offset hoff
  refine ⟨_, (step_csrRead hm h4).trans (readReg_drawn (s := { s with moves := rest }) hp hprog), fun h => ?_⟩
  subst h
  exact drawn_runLeft_lt _

/-- Settles O37: the access is the write of the register at the offset, which the read-only ones and the unmapped offsets
ignore. -/
theorem registerWritesWhenIdle : Obligations.RegisterWritesWhenIdle := by
  intro s rest off v hm hp
  have hwrite (h4 : off % 4 = 0) (hc : csrAt off ≠ .ctrl) :
      step s = .next (({ s with moves := rest } : State).setReg (csrAt off) v) :=
    (step_csrWrite hm h4).trans (writeReg_idle (s := { s with moves := rest }) hp hc v)
  refine ⟨?_, ?_, ?_, ?_, ?_, ?_, fun h4 hro => ?_⟩
  case refine_7 =>
    rcases hro with rfl | rfl | hhigh
    · exact hwrite rfl nofun
    · exact hwrite rfl nofun
    · obtain ⟨hc, hset⟩ := setReg_csrAt_high hhigh h4 { s with moves := rest } v
      rw [hwrite h4 hc, hset]
  all_goals
    rintro rfl
    exact hwrite rfl nofun

/-- Settles O39: an aligned access is the write of a register, which a busy machine ignores. -/
theorem registerWritesWhileBusyAreIgnored : Obligations.RegisterWritesWhileBusyAreIgnored :=
  fun s rest _ v hm h4 hp => (step_csrWrite hm h4).trans (writeReg_busy (s := { s with moves := rest }) hp _ v)

/-- Settles O38: the offset is that of no register. -/
theorem unmappedOffsetsReadZero : Obligations.UnmappedOffsetsReadZero := by
  intro s rest off hm h4 hoff
  have hcsr : csrAt off = .unmapped := by rw [csrAt_high (by omega), if_neg (by omega)]
  rw [step_csrRead_value hm h4 (.inl (by rw [hcsr]; rfl)), hcsr, if_neg (by omega)]
  rfl

/-- Settles O40: both accesses go through the access rules, which refuse it before any register is named. -/
theorem otherRegisterAccessesAreRefused : Obligations.OtherRegisterAccessesAreRefused := by
  rintro s rest off width v (hm | hm) h <;> rw [step_host hm]
  · exact withCsr_refused h { s with moves := rest } readReg
  · exact withCsr_refused h { s with moves := rest } fun r => writeReg r v

/-- Settles O42: each register holds its reset value, and every cache entry is transparent black. -/
theorem resetValues : Obligations.ResetValues := by
  have hcache (i : BitVec 6) : State.reset.cacheAt i = Pixel.transparentBlack := initDecode_cacheAt State.reset i
  refine ⟨rfl, rfl, rfl, rfl, rfl, rfl, rfl, rfl, rfl, rfl, rfl, rfl, fun i => ?_, rfl, rfl, rfl⟩
  rw [hcache]
  rfl

end Sys2Proof.Machine
end

section
/-! PROOFS. The spaces (20_memory.md): what keeps a step inside the buffers, who writes IN and OUT, and when the host has
OUT back. -/

namespace Sys2Proof.Machine

/-! No step leaves the buffers. -/

/-- In a decode short of its end OUT has room for the next pixel (R121, R123). -/
theorem DecodeInv.room {s : State} (hd : DecodeInv s) (hne : s.outCursor.toNat ≠ s.decodedSize) : s.roomForPixel :=
  (hd.pixel_fits hne).trans hd.fits

/-- From the invariant the core's step always answers a next state: the pixels it writes have room. -/
theorem coreStep_next {s : State} (hi : MachineInv s) : ∃ t, coreStep s = .next t := by
  rcases coreStep_cases s with ⟨t, -, h⟩ | ⟨hdec, hne, hroom, -⟩ | ⟨hp, hfit, hroom, -⟩
  · exact ⟨t, h⟩
  · exact absurd ((hi.decode hdec).room hne) hroom
  · exact absurd (hfit.trans (hi.decode (.inr hp)).fits) hroom

/-- A command is ignored while one runs, refused where the buffers overlap, and otherwise answered with a next state. -/
theorem exec_command {i : Instr} (hi : i.isToken = false) (s : State) :
    ∃ t, exec i s =
      if s.phase ≠ .idle then .next s
      else if s.buffersOverlap = true then .refused .overlappingBuffers
      else .next t := by
  cases i
  case parseHeader | decode | decodeWithDescriptor =>
    simp only [exec, execParseHeader, execDecode, execDecodeWithDescriptor, launch_eq]
    exact ⟨_, rfl⟩
  all_goals cases hi

/-- No command faults. -/
theorem exec_command_ne_fault {i : Instr} (hi : i.isToken = false) (s : State) (f : Fault) : exec i s ≠ .fault f := by
  obtain ⟨t, h⟩ := exec_command hi s
  rw [h]
  split
  · nofun
  · split <;> nofun

/-- From the invariant no answer to a move of the host is a fault. -/
theorem hostAnswer_ne_fault {s : State} {m : HostMove} {o : Out} (hi : MachineInv s) (h : HostAnswer s m o) (f : Fault) :
    o ≠ .fault f := by
  cases h
  case core hc =>
    obtain ⟨t, ht⟩ := coreStep_next hi
    rw [← hc, ht]
    nofun
  case command hcmd => exact exec_command_ne_fault (by rcases hcmd with rfl | rfl | rfl <;> rfl) s f
  all_goals nofun

/-- Settles O47: the invariant gives every pixel of the core its room, and no move of the host reaches past the buffers. -/
theorem noFaultFromTheInvariant : Obligations.NoFaultFromTheInvariant := by
  intro s hi
  obtain ⟨t, ht⟩ := coreStep_next hi
  refine ⟨fun f => ?_, fun hm => ⟨t, (step_core hm).trans ht⟩⟩
  cases hm : s.moves with
  | nil =>
    rw [step_core hm, ht]
    nofun
  | cons m rest =>
    rw [step_host hm]
    exact hostAnswer_ne_fault (hostSide_inv hi rest s.hostData s.draws .inl) (hostStep_cases m _) f

/-- Every token but a run gives a pixel. -/
theorem pixelOf_of_isToken {i : Instr} (ht : i.isToken = true) (hr : ∀ l, i ≠ .run l) (s : State) :
    ∃ len q, pixelOf s i = some (len, q) := by
  cases i
  case rgb | rgba | index | diff | luma => exact ⟨_, _, rfl⟩
  case run l => exact absurd rfl (hr l)
  all_goals cases ht

/-- Settles O16: the token is `completeToken` of its pixel, which needs the room. -/
theorem pixelTokenWithoutRoomStops : Obligations.PixelTokenWithoutRoomStops := by
  intro i s ht hr hroom
  obtain ⟨len, q, hq⟩ := pixelOf_of_isToken ht hr s
  rw [exec_of_pixelOf hq, completeToken_eq, if_neg hroom]

/-! The placement of the buffers. -/

/-- Two ranges overlap exactly where some address lies in both; the least such address is the greater of the two bases. -/
theorem rangesOverlap_iff (a n b m : Nat) :
    rangesOverlap a n b m = true ↔ ∃ x, a ≤ x ∧ x < a + n ∧ b ≤ x ∧ x < b + m := by
  simp only [rangesOverlap, decide_eq_true_eq]
  constructor
  · exact fun h => ⟨max a b, by omega⟩
  · rintro ⟨x, hx⟩
    omega

/-- Settles O22: an idle machine launches a command exactly where the ranges have no address in common. -/
theorem overlappingLaunchIsRefused : Obligations.OverlappingLaunchIsRefused := by
  intro i s hi hp shared
  have hshared : s.buffersOverlap = true ↔ shared := rangesOverlap_iff ..
  obtain ⟨t, h⟩ := exec_command hi s
  rw [if_neg (not_not.2 hp)] at h
  exact ⟨fun hs => h.trans (if_pos (hshared.2 hs)), fun hs => ⟨t, h.trans (if_neg (mt hshared.1 hs))⟩⟩

/-! Who writes IN and OUT. -/

/-- An answer to a move of the host leaves IN alone, or is that to a write of IN in an idle machine. -/
theorem hostAnswer_inMem {s t : State} {m : HostMove} {o : Out} (h : HostAnswer s m o) (ho : o = .next t) :
    t.inMem = s.inMem ∨
      s.phase = .idle ∧ ∃ a v, m = .writeIn a v ∧ t.inMem = Memory.write s.inMem a.toNat v := by
  cases h
  case core hc => exact .inl (coreMove_frame (coreMove_of_next (hc.trans ho))).inMem
  case command hcmd => exact .inl (command_frame hcmd ho).1.inMem
  all_goals cases ho
  case writeIn a v hp => exact .inr ⟨hp, a, v, rfl, rfl⟩
  case csrSet v r _ => exact .inl (setReg_frame s r v).2.1
  case reset | csrRead | csrIgnored | writeOut | readOut => exact .inl rfl

/-- Settles O49: the core never writes IN, and of the host's moves only the write of an IN byte does. -/
theorem inputChangesOnlyByTheHost : Obligations.InputChangesOnlyByTheHost := by
  intro s t h hne
  obtain hcore | ⟨m, rest, o, hm, hans, ho⟩ := step_next h
  · exact absurd (coreMove_frame hcore).inMem hne
  · obtain hsame | ⟨hp, a, v, rfl, hw⟩ := hostAnswer_inMem hans ho
    · exact absurd hsame hne
    · exact ⟨hp, a, v, rest, hm, hw⟩

/-- From `s` to `t` the pixel cursor never moves back nor past `decoded_size`, and OUT changes only between the old cursor
and the new one. -/
structure OutputAtCursor (s t : State) : Prop where
  forward : s.outCursor.toNat ≤ t.outCursor.toNat
  bound : t.outCursor.toNat ≤ s.decodedSize
  elsewhere : ∀ a, a < s.outCursor.toNat ∨ t.outCursor.toNat ≤ a → Memory.read t.outMem a = Memory.read s.outMem a

/-- A move that leaves OUT and the pixel cursor alone writes nothing. -/
theorem DecodeInv.outputAtCursor_of_same {s t : State} (hd : DecodeInv s) (hc : t.outCursor = s.outCursor)
    (hm : t.outMem = s.outMem) : OutputAtCursor s t where
  forward := by rw [hc]
  bound := hc ▸ hd.cursor
  elsewhere := fun _ _ => by rw [hm]

/-- A move that writes one pixel that fits below `decoded_size` writes at the cursor. -/
theorem PixelWritten.outputAtCursor {q : Pixel} {s t : State} (hw : PixelWritten q s t)
    (hfit : s.outCursor.toNat + s.ch.count ≤ s.decodedSize) : OutputAtCursor s t where
  forward := hw.cursor ▸ Nat.le_add_right _ _
  bound := hw.cursor.trans_le hfit
  elsewhere := hw.cursor ▸ hw.elsewhere

/-- A move of the decode loop writes OUT only at the cursor: a token and a repetition write one pixel, the other moves
none. -/
theorem coreMove_outputAtCursor {s t : State} (hi : MachineInv s) (hdec : s.decoding) (h : CoreMove s t) :
    OutputAtCursor s t := by
  have hd := hi.decode hdec
  cases h
  case headerDone hp _ => rcases hdec with h | h <;> cases hp.symm.trans h
  case token q hdue _ hroom =>
    exact (pixelWritten (q := s.settleAlpha q) hi.outWf hroom rfl rfl).outputAtCursor (hd.pixel_fits hdue.2.1)
  case repetition hfit hroom =>
    exact (pixelWritten (q := s.px) hi.outWf hroom rfl rfl).outputAtCursor hfit
  case wait | headerError | loopEnd | guard | short | runToken | runEnd => exact hd.outputAtCursor_of_same rfl rfl

/-- Outside the decode loop the core writes no byte of OUT. -/
theorem coreMove_outMem {s t : State} (hdec : ¬s.decoding) (h : CoreMove s t) : t.outMem = s.outMem := by
  cases h
  case headerDone w hgt mode _ _ => exact (acceptHeader_frame w hgt mode s).2
  case token hdue _ _ => exact absurd (.inl hdue.1) hdec
  case repetition hp _ _ => exact absurd (.inr hp) hdec
  all_goals rfl

/-- Settles O54: the moves of the decode loop write at the cursor, the other moves of the core not at all. -/
theorem outputWrittenOnlyAtTheCursor : Obligations.OutputWrittenOnlyAtTheCursor := by
  intro s t hi hm h
  have hmove := coreMove_of_next (step_core hm ▸ h)
  refine ⟨fun hdec => ?_, fun hdec => coreMove_outMem hdec hmove⟩
  obtain ⟨hforward, hbound, helse⟩ := coreMove_outputAtCursor hi hdec hmove
  exact ⟨hforward, hbound, helse⟩

/-! The host's accesses of the spaces. -/

/-- The host's write of an IN byte is taken while no command runs, and refused while one does (R60). -/
theorem step_writeIn {s : State} {rest : List HostMove} {a : Word32} {v : Byte} (hm : s.moves = .writeIn a v :: rest) :
    step s =
      if s.phase = .idle then .next { s with moves := rest, inMem := Memory.write s.inMem a.toNat v }
      else .refused .hostWriteWhileBusy := by
  rw [step_host hm]
  by_cases hp : s.phase = .idle <;> simp [hostStep, hostWriteIn, State.busy, hp]

/-- The host's write of an OUT byte is taken while no command runs, and refused while one does (R60). -/
theorem step_writeOut {s : State} {rest : List HostMove} {a : Word32} {v : Byte} (hm : s.moves = .writeOut a v :: rest) :
    step s =
      if s.phase = .idle then .next { s with moves := rest, outMem := Memory.write s.outMem a.toNat v }
      else .refused .hostWriteWhileBusy := by
  rw [step_host hm]
  by_cases hp : s.phase = .idle <;> simp [hostStep, hostWriteOut, State.busy, hp]

/-- The host's read of an OUT byte gives it once the idle machine is acquired, and a draw before (R60, R61). -/
theorem step_readOut {s : State} {rest : List HostMove} {a : Word32} (hm : s.moves = .readOut a :: rest) :
    step s =
      if s.phase = .idle ∧ s.acquired = true then
        .next { s with moves := rest, hostData := (Memory.read s.outMem a.toNat).setWidth 32 }
      else
        .next { s with moves := rest, hostData := (Config.freeByte s.draws).setWidth 32, draws := s.draws + 1 } := by
  rw [step_host hm]
  by_cases hp : s.phase = .idle <;> simp [hostStep, hostReadOut, State.busy, hp]

/-- Settles O41: each access is answered or refused as its step says, and a write changes its own byte alone. -/
theorem hostMemoryMoves : Obligations.HostMemoryMoves := by
  intro s rest a v hin hout
  refine ⟨fun hm => ?_, fun hm => ?_, fun hm => ?_⟩
  · rw [step_writeIn hm]
    split
    · exact ⟨_, rfl, Memory.read_write_same hin _ v, fun x hx => Memory.read_write_other _ v hx, rfl⟩
    · rfl
  · rw [step_writeOut hm]
    split
    · exact ⟨_, rfl, Memory.read_write_same hout _ v, fun x hx => Memory.read_write_other _ v hx, rfl⟩
    · rfl
  · rw [step_readOut hm]
    split
    · rfl
    · exact ⟨_, rfl⟩

/-! The acquire. -/

/-- Bit 0 of `STATUS` is `BUSY` (R32). -/
theorem statusWord_bit0 (s : State) : s.statusWord.getLsbD 0 = s.busy :=
  BitVec.getLsbD_append.trans (by simp)

/-- The decode entry acquires nothing. -/
theorem decodeEntry_acquired (p : Word32) (s : State) : (s.decodeEntry p).acquired = s.acquired := by
  rcases decodeEntry_cases p s with ⟨_, e⟩ | ⟨_, _, e⟩ | ⟨_, _, e⟩ <;> rw [e] <;> rfl

/-- A command start that is not ignored clears the acquire; no command acquires. -/
theorem command_acquired {i : Instr} (hi : i = .parseHeader ∨ i = .decode ∨ i = .decodeWithDescriptor) {s t : State}
    (h : exec i s = .next t) (ht : t.acquired = true) : s.acquired = true := by
  obtain rfl | ⟨-, -, ⟨c, -, rfl⟩ | rfl⟩ := command_next hi h
  · exact ht
  · cases ht
  · rw [decodeEntry_acquired] at ht
    cases ht

/-- A write of a register acquires nothing. -/
@[simp] theorem setReg_acquired (s : State) (r : CsrReg) (v : Word32) : (s.setReg r v).acquired = s.acquired := by
  cases r <;> rfl

/-- After an answer to a move of the host OUT is acquired only where it was, or by an aligned 32-bit read of `STATUS` while
no command runs. -/
theorem hostAnswer_acquired {s t : State} {m : HostMove} {o : Out} (h : HostAnswer s m o) (ho : o = .next t)
    (ht : t.acquired = true) :
    s.acquired = true ∨ s.phase = .idle ∧ m = .csrRead (s.params.csrBase + 0x04) .word := by
  cases h
  case core hc => exact .inl ((coreMove_acquired (coreMove_of_next (hc.trans ho))).symm.trans ht)
  case command hcmd => exact .inl (command_acquired hcmd ho ht)
  all_goals cases ho
  case csrRead hb =>
    refine (hb ht).imp_right ?_
    rintro ⟨hp, rfl, rfl⟩
    exact ⟨hp, rfl⟩
  case csrSet r _ => exact .inl ((setReg_acquired s r _).symm.trans ht)
  case reset => cases ht
  case csrIgnored | writeIn | writeOut | readOut => exact .inl ht

/-- Settles O60: the read of `STATUS` shows `BUSY = 0` and acquires, so that the read of OUT draws nothing; and no other
answer to the host, and no move of the core, acquires. -/
theorem statusReadAcquires : Obligations.StatusReadAcquires := by
  refine ⟨fun s rest a hp hm => ?_, fun s t h hs ht => ?_⟩
  · have hstatus := step_csrRead_value hm rfl (.inr hp)
    rw [if_pos ⟨rfl, hp⟩] at hstatus
    have hread := step_readOut (s := { s with
      moves := .readOut a :: rest, hostData := s.csrValue (csrAt 0x04), acquired := true }) rfl
    rw [if_pos ⟨hp, rfl⟩] at hread
    refine ⟨_, _, hstatus, ?_, hread, ?_, rfl⟩
    · exact (statusWord_bit0 s).trans ((not_busy_iff s).2 hp)
    · have := (Memory.read s.outMem a.toNat).isLt
      simp only [BitVec.toNat_setWidth]
      omega
  · obtain hcore | ⟨m, rest, o, hm, hans, ho⟩ := step_next h
    · simp [coreMove_acquired hcore, hs] at ht
    · obtain hacq | ⟨hp, rfl⟩ := hostAnswer_acquired hans ho ht
      · simp [hs] at hacq
      · exact ⟨hp, rest, hm⟩

end Sys2Proof.Machine
end

section
/-! PROOFS. The encoding (30_encoding.md): the first byte's ranges, the fields of a byte, and the round trips. -/

namespace Sys2Proof

/-- The first bytes of each kind of token, the lowest and the highest (30_encoding.md R77). -/
def TokenKind.firstBytes : TokenKind → Nat × Nat
  | .index => (0x00, 0x3F)
  | .diff => (0x40, 0x7F)
  | .luma => (0x80, 0xBF)
  | .run => (0xC0, 0xFD)
  | .rgb => (0xFE, 0xFE)
  | .rgba => (0xFF, 0xFF)

/-- The instructions of each kind of token. -/
def TokenKind.Token : TokenKind → Instr → Prop
  | .rgb, i => ∃ r g b, i = .rgb r g b
  | .rgba, i => ∃ r g b a, i = .rgba r g b a
  | .index, i => ∃ k, i = .index k
  | .diff, i => ∃ dr dg db, i = .diff dr dg db
  | .luma, i => ∃ dg drg dbg, i = .luma dg drg dbg
  | .run, i => ∃ l, i = .run l

/-- The dispatcher's two sentinels and its two leading bits are the six ranges of R77. -/
theorem kind_of_firstBytes (k : TokenKind) :
    ∀ b0 : Byte, k.firstBytes.1 ≤ b0.toNat → b0.toNat ≤ k.firstBytes.2 → kind b0 = k := by
  cases k <;> decide

/-! The tags that the encoder puts in front of the fields (R72), as the dispatcher reads them. -/

theorem kind_index (i : BitVec 6) : kind (0b00#2 ++ i) = .index := by decide +revert
theorem kind_diff (dr dg db : BitVec 2) : kind (0b01#2 ++ dr ++ dg ++ db) = .diff := by decide +revert
theorem kind_luma (dg : BitVec 6) : kind (0b10#2 ++ dg) = .luma := by decide +revert
theorem kind_run (l : BitVec 6) (h : l.toNat ≤ 61) : kind (0b11#2 ++ l) = .run := by decide +revert

/-- The three fields read from an `OP_DIFF` byte. -/
theorem diff_fields (dr dg db : BitVec 2) :
    (0b01#2 ++ dr ++ dg ++ db).extractLsb' 4 2 = dr ∧ (0b01#2 ++ dr ++ dg ++ db).extractLsb' 2 2 = dg ∧
      (0b01#2 ++ dr ++ dg ++ db).extractLsb' 0 2 = db := by decide +revert

/-! A byte is its tag and its fields put together again. -/

theorem index_byte (b0 : Byte) (h : kind b0 = .index) : 0b00#2 ++ b0.extractLsb' 0 6 = b0 := by decide +revert
theorem diff_byte (b0 : Byte) (h : kind b0 = .diff) :
    0b01#2 ++ b0.extractLsb' 4 2 ++ b0.extractLsb' 2 2 ++ b0.extractLsb' 0 2 = b0 := by decide +revert
theorem luma_byte (b0 : Byte) (h : kind b0 = .luma) : 0b10#2 ++ b0.extractLsb' 0 6 = b0 := by decide +revert
theorem run_byte (b0 : Byte) (h : kind b0 = .run) : 0b11#2 ++ b0.extractLsb' 0 6 = b0 := by decide +revert
theorem sentinel_bytes (b0 : Byte) : (kind b0 = .rgb → b0 = 0xFE#8) ∧ (kind b0 = .rgba → b0 = 0xFF#8) := by
  decide +revert
theorem byte_of_halves (b : Byte) : b.extractLsb' 4 4 ++ b.extractLsb' 0 4 = b := by decide +revert

/-- The decoder reads the fields of the kind that the first byte selects. -/
theorem decodeToken_of_kind {b0 : Byte} {k : TokenKind} (h : kind b0 = k) (tail : List Byte) :
    decodeToken (b0 :: tail) = decodeFields b0 tail k := h ▸ rfl

/-- A token's words are its bytes. -/
theorem encode_of_isToken {i : Instr} (h : i.isToken = true) : encode i = .token i.bytes := by
  cases i
  case parseHeader | decode | decodeWithDescriptor => cases h
  all_goals rfl

/-- The decoder takes a well-formed token's bytes off the stream, whatever follows them. -/
theorem decodeToken_bytes {i : Instr} (hw : i.wellFormed = true) (ht : i.isToken = true) (rest : List Byte) :
    decodeToken (i.bytes ++ rest) = .ok (i, rest) := by
  cases i with
  | rgb | rgba => rfl
  | index k =>
    refine (decodeToken_of_kind (kind_index k) rest).trans ?_
    simp only [decodeFields, BitVec.extractLsb'_append_eq_right]
  | diff dr dg db =>
    obtain ⟨hr, hg, hb⟩ := diff_fields dr dg db
    refine (decodeToken_of_kind (kind_diff dr dg db) rest).trans ?_
    simp only [decodeFields, hr, hg, hb]
  | luma dg drg dbg =>
    refine (decodeToken_of_kind (kind_luma dg) ((drg ++ dbg) :: rest)).trans ?_
    simp only [decodeFields, BitVec.extractLsb'_append_eq_right, BitVec.extractLsb'_append_eq_left]
  | run l =>
    refine (decodeToken_of_kind (kind_run l (of_decide_eq_true hw)) rest).trans ?_
    simp only [decodeFields, BitVec.extractLsb'_append_eq_right]
  | parseHeader | decode | decodeWithDescriptor => cases ht

/-- Settles O2: a token's bytes are read back off any stream, the empty rest among them, and a command's word is one of
three. -/
theorem encodeThenDecodeGivesBack : Obligations.EncodeThenDecodeGivesBack := by
  refine fun i hw => ⟨?_, decodeToken_bytes hw⟩
  by_cases ht : i.isToken = true
  · have hbytes := decodeToken_bytes hw ht []
    rw [List.append_nil] at hbytes
    simp only [encode_of_isToken ht, decodeEncoded, hbytes]
  · cases i
    case parseHeader | decode | decodeWithDescriptor => decide
    all_goals exact absurd rfl ht

/-- What the decoder gives for the kind of the first byte is a well-formed token, whose bytes are those it took. -/
theorem decodeFields_bytes {b0 : Byte} {tail rest : List Byte} {i : Instr} {k : TokenKind} (hk : kind b0 = k)
    (h : decodeFields b0 tail k = .ok (i, rest)) :
    i.wellFormed = true ∧ i.isToken = true ∧ b0 :: tail = i.bytes ++ rest := by
  cases k <;> simp only [decodeFields] at h
  case rgb =>
    split at h <;> cases h
    exact ⟨rfl, rfl, by rw [(sentinel_bytes b0).1 hk]; rfl⟩
  case rgba =>
    split at h <;> cases h
    exact ⟨rfl, rfl, by rw [(sentinel_bytes b0).2 hk]; rfl⟩
  case index =>
    cases h
    exact ⟨rfl, rfl, congrArg (· :: tail) (index_byte b0 hk).symm⟩
  case diff =>
    cases h
    exact ⟨rfl, rfl, congrArg (· :: tail) (diff_byte b0 hk).symm⟩
  case luma =>
    split at h <;> cases h
    rename_i b1
    exact ⟨rfl, rfl, congrArg₂ (· :: · :: rest) (luma_byte b0 hk).symm (byte_of_halves b1).symm⟩
  case run =>
    cases h
    exact ⟨decide_eq_true (Machine.kind_run_field b0 hk), rfl, congrArg (· :: tail) (run_byte b0 hk).symm⟩

/-- Settles O3: the first byte's kind says which fields were taken, and they make up the bytes again. -/
theorem decodedBytesAreTheEncoding : Obligations.DecodedBytesAreTheEncoding := by
  intro bs rest i h
  cases bs with
  | nil => cases h
  | cons b0 tail => exact decodeFields_bytes rfl h

/-- The decoder gives a token of the kind that it dispatches on, and takes as many bytes as the kind is long. -/
theorem decodeFields_token {b0 : Byte} {tail rest : List Byte} {i : Instr} {k : TokenKind}
    (h : decodeFields b0 tail k = .ok (i, rest)) : k.Token i ∧ rest.length + k.length = tail.length + 1 := by
  cases k <;> simp only [decodeFields] at h
  case index | diff | run =>
    cases h
    simp [TokenKind.Token, TokenKind.length]
  all_goals
    split at h <;> cases h
    simp [TokenKind.Token, TokenKind.length]

/-- A first byte in a kind's range has the kind's length, and what it decodes to is a token of the kind. -/
theorem token_of_firstBytes {b0 : Byte} {tail rest : List Byte} {i : Instr}
    (h : decodeToken (b0 :: tail) = .ok (i, rest)) (k : TokenKind) (hlo : k.firstBytes.1 ≤ b0.toNat)
    (hhi : b0.toNat ≤ k.firstBytes.2) : tokenLength b0 = k.length ∧ k.Token i := by
  obtain rfl := kind_of_firstBytes k b0 hlo hhi
  exact ⟨rfl, (decodeFields_token h).1⟩

/-- Settles O4: each range is the first bytes of one kind, and the decoder takes the kind's length. -/
theorem firstByteSelectsTokenAndLength : Obligations.FirstByteSelectsTokenAndLength := by
  intro b0 tail rest i h
  have token := token_of_firstBytes h
  exact ⟨token .index (Nat.zero_le _), token .diff, token .luma, token .run,
    fun hb => token .rgb hb.ge hb.le, fun hb => token .rgba hb.ge hb.le, (decodeFields_token h).2⟩

/-- Settles O5: no kind of token is longer than five bytes. -/
theorem anyFiveBytesBeginWithAToken : Obligations.AnyFiveBytesBeginWithAToken := by
  intro b0 b1 b2 b3 b4
  simp only [decodeToken, tokenLength]
  cases kind b0 <;> exact ⟨_, _, rfl, rfl, rfl⟩

/-- Settles O1: the decoder computes each answer from the word as written. -/
theorem writtenOutWordsDecode : Obligations.WrittenOutWordsDecode := by
  unfold Obligations.WrittenOutWordsDecode
  decide

end Sys2Proof
end

section
/-! PROOFS. The assembler (30_encoding.md R80): the operands that have a field, and what the field stands for. -/

namespace Sys2Proof.Machine

/-- An operand that assembles fits in the field with its bias, and the field holds just that. -/
theorem asmField_some {n : Nat} {bias v : Int} {f : BitVec n} (h : asmField n bias v = some f) :
    (f.toNat : Int) = v + bias ∧ 0 ≤ v + bias ∧ v + bias < 2 ^ n := by
  unfold asmField at h
  split at h <;> cases h
  next hin =>
    obtain ⟨hlo, hhi⟩ := hin
    have hmod : (v + bias) % ((2 ^ n : Nat) : Int) = v + bias := Int.emod_eq_of_lt hlo (by exact_mod_cast hhi)
    exact ⟨by rw [BitVec.toNat_ofInt, hmod, Int.toNat_of_nonneg hlo], hlo, hhi⟩

/-- An operand that fits in the field with its bias assembles. -/
theorem asmField_of_fits (n : Nat) (bias v : Int) (hlo : 0 ≤ v + bias) (hhi : v + bias < 2 ^ n) :
    ∃ f, asmField n bias v = some f ∧ (f.toNat : Int) = v + bias :=
  have h : asmField n bias v = some (BitVec.ofInt n (v + bias)) := if_pos ⟨hlo, hhi⟩
  ⟨_, h, (asmField_some h).1⟩

/-- A `DIFF` statement takes the deltas that its fields stand for, and no others. -/
theorem diff_assembles (dr dg db : Int) :
    if -2 ≤ dr ∧ dr ≤ 1 ∧ -2 ≤ dg ∧ dg ≤ 1 ∧ -2 ≤ db ∧ db ≤ 1 then
      ∃ fr fg fb, (AsmLine.diff dr dg db).token = some (.diff fr fg fb) ∧
        diffDelta fr = dr ∧ diffDelta fg = dg ∧ diffDelta fb = db
    else (AsmLine.diff dr dg db).token = none := by
  split
  next hin =>
    obtain ⟨fr, hr, vr⟩ := asmField_of_fits 2 2 dr (by omega) (by omega)
    obtain ⟨fg, hg, vg⟩ := asmField_of_fits 2 2 dg (by omega) (by omega)
    obtain ⟨fb, hb, vb⟩ := asmField_of_fits 2 2 db (by omega) (by omega)
    refine ⟨fr, fg, fb, by simp [AsmLine.token, hr, hg, hb], ?_⟩
    unfold diffDelta
    omega
  next hout =>
    simp only [AsmLine.token, Option.bind_eq_bind, Option.bind_eq_none_iff]
    intro fr hr fg hg fb hb
    have vr := asmField_some hr
    have vg := asmField_some hg
    have vb := asmField_some hb
    omega

/-- A `LUMA` statement takes the green delta and the deltas relative to it that its fields stand for, and no others. -/
theorem luma_assembles (dg drg dbg : Int) :
    if -32 ≤ dg ∧ dg ≤ 31 ∧ -8 ≤ drg ∧ drg ≤ 7 ∧ -8 ≤ dbg ∧ dbg ≤ 7 then
      ∃ fg fr fb, (AsmLine.luma dg drg dbg).token = some (.luma fg fr fb) ∧
        lumaGreen fg = dg ∧ lumaCross fg fr = dg + drg ∧ lumaCross fg fb = dg + dbg
    else (AsmLine.luma dg drg dbg).token = none := by
  split
  next hin =>
    obtain ⟨fg, hg, vg⟩ := asmField_of_fits 6 32 dg (by omega) (by omega)
    obtain ⟨fr, hr, vr⟩ := asmField_of_fits 4 8 drg (by omega) (by omega)
    obtain ⟨fb, hb, vb⟩ := asmField_of_fits 4 8 dbg (by omega) (by omega)
    refine ⟨fg, fr, fb, by simp [AsmLine.token, hg, hr, hb], ?_⟩
    unfold lumaCross lumaGreen
    omega
  next hout =>
    simp only [AsmLine.token, Option.bind_eq_bind, Option.bind_eq_none_iff]
    intro fg hg fr hr fb hb
    have vg := asmField_some hg
    have vr := asmField_some hr
    have vb := asmField_some hb
    omega

/-- A `RUN` statement takes 1 to 62 repetitions: its field would hold 63 and 64 too, whose bytes are the sentinels. -/
theorem run_assembles (n : Int) :
    if 1 ≤ n ∧ n ≤ 62 then ∃ l, (AsmLine.run n).token = some (.run l) ∧ (pixelCount (.run l) : Int) = n
    else (AsmLine.run n).token = none := by
  split
  next hin =>
    obtain ⟨l, hl, vl⟩ := asmField_of_fits 6 (-1) n (by omega) (by omega)
    refine ⟨l, by simp [AsmLine.token, hl, hin.2], ?_⟩
    simp only [pixelCount]
    omega
  next hout =>
    by_cases hn : n ≤ 62
    · simp only [AsmLine.token, if_pos hn, Option.bind_eq_bind, Option.bind_eq_none_iff]
      intro l hl
      have vl := asmField_some hl
      omega
    · exact if_neg hn

/-- Settles O6: the three statements one by one, each operand through its field. -/
theorem assembledOperandsAreAsWritten : Obligations.AssembledOperandsAreAsWritten :=
  ⟨diff_assembles, luma_assembles, run_assembles⟩

end Sys2Proof.Machine
end

section
/-! PROOFS. The commands (40_commands.md): how a command starts, and the decode entry. -/

namespace Sys2Proof.Machine

/-! The launch. -/

/-- While no command runs and the buffers are apart, a command starts in one step (R100). -/
theorem launch_of_canLaunch {s : State} (h : s.canLaunch) (c : Command) (body : State → State) :
    launch c body s = .next (body (s.beginCommand c)) := by
  obtain ⟨hp, ho⟩ := h
  rw [launch_eq, if_neg (not_not.2 hp), if_neg (by simp [ho])]

/-- The state in which a command with a header leaves an idle machine: the header parse is due (R104, R105). -/
def State.headerDue (c : Command) (s : State) : State := { s.beginCommand c with phase := .hdr }

theorem exec_parseHeader {s : State} (h : s.canLaunch) : exec .parseHeader s = .next (s.headerDue .parseHeader) :=
  launch_of_canLaunch h .parseHeader fun t => { t with phase := .hdr }

theorem exec_decode {s : State} (h : s.canLaunch) : exec .decode s = .next (s.headerDue .decode) :=
  launch_of_canLaunch h .decode fun t => { t with phase := .hdr }

/-- Settles O17: the launch clears the status and the acquire and sets `cmd`, and the header parse is made due. -/
theorem headerCommandsStart : Obligations.HeaderCommandsStart :=
  fun _ h => ⟨exec_parseHeader h, exec_decode h⟩

/-- Settles O21: every command is a launch, which a busy machine ignores. -/
theorem commandWhileBusyIsIgnored : Obligations.CommandWhileBusyIsIgnored := by
  intro i s hi hp
  obtain ⟨t, h⟩ := exec_command hi s
  exact h.trans (if_pos hp)

/-! The write of `CTRL`. -/

/-- `CMD` is the written word modulo 4 (10_state.md R31). -/
theorem ctrlCmd_toNat (w : Word32) : (w.extractLsb' 0 2).toNat = w.toNat % 4 := by simp

/-- While no command runs, the host's write of `CTRL` is taken off its moves and decoded. -/
theorem step_writeCtrl {s : State} {w : Word32} {rest : List HostMove}
    (hm : s.moves = .csrWrite s.params.csrBase .word w :: rest) (hp : s.phase = .idle) :
    step s = writeCtrl w { s with moves := rest } := by
  rw [step_csrWrite (off := 0) hm rfl]
  exact if_neg (by simp [State.busy, hp])

/-- Settles O30: the decoder of the written word looks at `CMD` alone. -/
theorem stepRunsTheCommandWritten : Obligations.StepRunsTheCommandWritten := by
  intro s w rest hm hp
  rw [step_writeCtrl hm hp]
  refine ⟨fun h => ?_, fun h => ?_, fun h => ?_, fun h => ?_⟩ <;>
    simp only [writeCtrl, decodeCtrl, ctrlCmd_toNat, h]

/-! The decode entry. -/

/-- The channel count of a `MODE` value, as a number (41_decode_loop.md R120). -/
theorem channelsOfMode_count (mode : BitVec 2) :
    (channelsOfMode mode).count = if mode.getLsbD 0 then 4 else 3 := by
  unfold channelsOfMode
  split <;> rfl

/-- What every decode entry does, whichever way it ends: the latches and the cursors are loaded (R120), and the rest but
the status, the phase, the pixel and the cache is unchanged. -/
structure DecodeLoaded (p : Word32) (s t : State) : Prop where
  cmd : t.cmd = s.cmd
  acquired : t.acquired = s.acquired
  pc : t.pc = p
  outCursor : t.outCursor = 0
  runLeft : t.runLeft = 0
  decodedSize : t.decodedSize = s.width.toNat * s.height.toNat * (channelsOfMode s.mode).count
  ch : t.ch = channelsOfMode s.mode
  inputs : SameInputs s t
  descriptor : SameDescriptor s t

theorem decodeEntry_loaded (p : Word32) (s : State) : DecodeLoaded p s (s.decodeEntry p) := by
  rcases decodeEntry_cases p s with ⟨_, e⟩ | ⟨_, _, e⟩ | ⟨_, _, e⟩ <;> rw [e] <;>
    exact ⟨rfl, rfl, rfl, rfl, rfl, rfl, rfl, ⟨rfl, rfl, rfl, rfl, rfl, rfl, rfl, rfl, rfl⟩, ⟨rfl, rfl, rfl⟩⟩

/-- The status a command start leaves, and a decode entry finds. -/
structure StatusReset (s : State) : Prop where
  done : s.done = false
  err : s.err = false
  code : s.code = 0

/-- The zero exit succeeds and touches neither the pixel nor the cache (R121). -/
theorem decodeEntry_empty {s : State} (hs : StatusReset s) (p : Word32) (h : s.width = 0 ∨ s.height = 0) :
    (s.decodeEntry p).succeeded ∧ SamePixels s (s.decodeEntry p) := by
  have e : s.decodeEntry p = (s.loadDecode p).finish := if_pos h
  rw [e]
  exact ⟨⟨rfl, rfl, hs.err, hs.code⟩, rfl, rfl⟩

/-- The buffer check fails with code 5 and touches neither the pixel nor the cache (R121). -/
theorem decodeEntry_small {s : State} (hs : StatusReset s) (p : Word32) (h : ¬(s.width = 0 ∨ s.height = 0))
    (hsmall : s.outLen.toNat < s.width.toNat * s.height.toNat * (channelsOfMode s.mode).count) :
    (s.decodeEntry p).failed 5 ∧ SamePixels s (s.decodeEntry p) := by
  have e : s.decodeEntry p = (s.loadDecode p).raise .outputIsTooSmall := (if_neg h).trans (if_pos hsmall)
  rw [e]
  exact ⟨⟨rfl, hs.done, rfl, rfl⟩, rfl, rfl⟩

/-- Past both exits the decode is initialised (R122). -/
theorem decodeEntry_fits {s : State} (hs : StatusReset s) (p : Word32) (h : ¬(s.width = 0 ∨ s.height = 0))
    (hfits : s.width.toNat * s.height.toNat * (channelsOfMode s.mode).count ≤ s.outLen.toNat) :
    (s.decodeEntry p).initialised := by
  have e : s.decodeEntry p = (s.loadDecode p).initDecode := (if_neg h).trans (if_neg (Nat.not_lt.2 hfits))
  rw [e]
  exact ⟨rfl, rfl, initDecode_cacheAt _, hs.done, hs.err, hs.code⟩

/-! `DECODE_WITH_DESCRIPTOR`. -/

/-- The state in which `DECODE_WITH_DESCRIPTOR` leaves an idle machine (R106). -/
def State.descriptorDecode (s : State) : State := (s.beginCommand .decodeWithDescriptor).decodeEntry s.start

theorem exec_decodeWithDescriptor {s : State} (h : s.canLaunch) :
    exec .decodeWithDescriptor s = .next s.descriptorDecode :=
  launch_of_canLaunch h .decodeWithDescriptor fun t => t.decodeEntry t.start

theorem beginCommand_statusReset (c : Command) (s : State) : StatusReset (s.beginCommand c) := ⟨rfl, rfl, rfl⟩

theorem descriptorDecode_loaded (s : State) :
    DecodeLoaded s.start (s.beginCommand .decodeWithDescriptor) s.descriptorDecode := decodeEntry_loaded ..

/-- Settles O18: the entry loads the latches and the cursors and takes the zero exit. -/
theorem descriptorDecodeOfEmptyImage : Obligations.DescriptorDecodeOfEmptyImage := by
  intro s hs hzero
  obtain ⟨hcmd, hacq, hpc, hout, hrun, hsize, hch, hin, hdesc⟩ := descriptorDecode_loaded s
  obtain ⟨hend, hpixels⟩ := decodeEntry_empty (beginCommand_statusReset .decodeWithDescriptor s) s.start hzero
  refine ⟨_, exec_decodeWithDescriptor hs, hend, hcmd, hacq, hpc, hout, hrun, ?_, ?_, hpixels, { hin with }, hdesc⟩
  · rcases hzero with h | h <;> simp [hsize, h]
  · rw [hch, channelsOfMode_count, beginCommand_mode]

/-- Settles O19: the entry loads the latches and the cursors and fails the buffer check. -/
theorem descriptorDecodeIntoSmallBuffer : Obligations.DescriptorDecodeIntoSmallBuffer := by
  intro s hs hw hh hsmall
  rw [← channelsOfMode_count] at hsmall ⊢
  obtain ⟨hcmd, hacq, hpc, hout, hrun, hsize, hch, hin, hdesc⟩ := descriptorDecode_loaded s
  obtain ⟨hend, hpixels⟩ := decodeEntry_small (beginCommand_statusReset .decodeWithDescriptor s) s.start
    (not_or.2 ⟨hw, hh⟩) hsmall
  exact ⟨_, exec_decodeWithDescriptor hs, hend, hcmd, hacq, hpc, hout, hrun, hsize, congrArg _ hch, hpixels,
    { hin with }, hdesc⟩

/-- Settles O20: the entry loads the latches and the cursors, passes both exits and initialises. -/
theorem descriptorDecodeEntersLoop : Obligations.DescriptorDecodeEntersLoop := by
  intro s hs hw hh hfits
  rw [← channelsOfMode_count] at hfits ⊢
  obtain ⟨hcmd, hacq, hpc, hout, hrun, hsize, hch, hin, hdesc⟩ := descriptorDecode_loaded s
  have hinit := decodeEntry_fits (beginCommand_statusReset .decodeWithDescriptor s) s.start (not_or.2 ⟨hw, hh⟩) hfits
  exact ⟨_, exec_decodeWithDescriptor hs, hinit, hcmd, hacq, hpc, hout, hrun, hsize, congrArg _ hch, { hin with }, hdesc⟩

end Sys2Proof.Machine
end

section
/-! PROOFS. The commands (40_commands.md): the header parse. -/

namespace Sys2Proof.Machine

/-! The header's fields, as numbers. -/

theorem inWord_toNat (s : State) (a : Nat) : (s.inWord a).toNat = inNumber s a := bigEndian_toNat ..

/-- `MODE` is twice the tag, plus 1 where there is an alpha channel (30_encoding.md R71). -/
theorem modeOfHeader_toNat (chan : Byte) {cs : Byte} (h : cs.toNat ≤ 1) :
    (modeOfHeader chan cs).toNat = 2 * cs.toNat + if chan.toNat = 4 then 1 else 0 := by
  have hcs : cs = 0 ∨ cs = 1 := by bv_omega
  have hchan : (chan == 4#8) = decide (chan.toNat = 4) := by
    rw [beq_eq_decide, decide_eq_decide]
    exact BitVec.toNat_eq
  unfold modeOfHeader
  rw [hchan]
  by_cases h4 : chan.toNat = 4 <;> rcases hcs with rfl | rfl <;> simp [h4]

/-- The bit `ALPHA` of `MODE` is set exactly where the channel count is 4 (30_encoding.md R71). -/
theorem modeOfHeader_alpha (chan cs : Byte) : (modeOfHeader chan cs).getLsbD 0 = (chan == 4#8) :=
  BitVec.getLsbD_append.trans (by simp)

/-- The latch `ch` of a legal channel count is that count (30_encoding.md R71, 41_decode_loop.md R120). -/
theorem channelsOfMode_modeOfHeader {chan : Byte} (h : chan.toNat = 3 ∨ chan.toNat = 4) (cs : Byte) :
    (channelsOfMode (modeOfHeader chan cs)).count = chan.toNat := by
  have h34 : chan = 3 ∨ chan = 4 := by bv_omega
  rw [channelsOfMode_count, modeOfHeader_alpha]
  rcases h34 with rfl | rfl <;> rfl

/-! The step of the header parse. -/

/-- What a header that passes its checks makes of the state (R102). -/
def State.headerAccepted (s : State) : State :=
  s.acceptHeader (s.inWord 4) (s.inWord 8) (modeOfHeader (Memory.read s.inMem 12) (Memory.read s.inMem 13))

/-- The header parse with its checks in numbers, in their order (R102, 60_exceptions.md R183). -/
theorem headerParse_numbers (s : State) :
    headerParse s = .next (
      if s.inLen.toNat < 14 then s.raise .dataTooSmall
      else if inNumber s 0 ≠ s.params.magic.toNat then s.raise .invalidMagic
      else if 1 < headerTag s then s.raise .invalidColorSpaceValue
      else if headerChannels s ≠ 3 ∧ headerChannels s ≠ 4 then s.raise .invalidChannelsValue
      else s.headerAccepted) := by
  have hmagic : s.inWord 0 ≠ s.params.magic ↔ inNumber s 0 ≠ s.params.magic.toNat := by
    rw [← inWord_toNat]
    exact BitVec.toNat_inj.not.symm
  have htag : Memory.read s.inMem 13 ≠ 0 ∧ Memory.read s.inMem 13 ≠ 1 ↔ 1 < headerTag s := by
    unfold headerTag
    bv_omega
  have hchan : Memory.read s.inMem 12 ≠ 3 ∧ Memory.read s.inMem 12 ≠ 4 ↔
      headerChannels s ≠ 3 ∧ headerChannels s ≠ 4 := by
    unfold headerChannels
    bv_omega
  rw [headerParse_eq, ← apply_ite Host.Outcome.next]
  simp only [State.checkHeader, hmagic, htag, hchan, State.headerAccepted]

/-- With no host move to come, a header parse that is due is the step. -/
theorem step_headerParse {s : State} (hm : s.moves = []) (hp : s.phase = .hdr) : step s = headerParse s := by
  rw [step_core hm, coreStep, hp]

/-- A header that passes the four checks is good. -/
theorem headerGood_of_checks {s : State} (hlen : ¬s.inLen.toNat < 14) (hmagic : ¬inNumber s 0 ≠ s.params.magic.toNat)
    (htag : ¬1 < headerTag s) (hchan : ¬(headerChannels s ≠ 3 ∧ headerChannels s ≠ 4)) : s.headerGood :=
  ⟨by omega, not_not.1 hmagic, by omega, by omega⟩

/-- A header parse raises an error or finds a good header. -/
theorem headerParse_cases (s : State) : (∃ e, headerParse s = .next (s.raise e)) ∨ s.headerGood := by
  rw [headerParse_numbers]
  split_ifs with hlen hmagic htag hchan
  · exact .inl ⟨_, rfl⟩
  · exact .inl ⟨_, rfl⟩
  · exact .inl ⟨_, rfl⟩
  · exact .inl ⟨_, rfl⟩
  · exact .inr (headerGood_of_checks hlen hmagic htag hchan)

/-- A good header is accepted (R102). -/
theorem headerParse_good {s : State} (h : s.headerGood) : headerParse s = .next s.headerAccepted := by
  obtain ⟨hlen, hmagic, htag, hchan⟩ := h
  rw [headerParse_numbers, if_neg (by omega), if_neg (by simpa using hmagic), if_neg (by omega), if_neg (by omega)]

/-- Settles O23: the checks of the header parse, in numbers, are the conditions of the statement. -/
theorem headerErrorsInOrder : Obligations.HeaderErrorsInOrder := by
  intro s hm hp
  rw [step_headerParse hm hp, headerParse_numbers]
  split_ifs with hlen hmagic htag hchan
  · rfl
  · rfl
  · rfl
  · rfl
  · exact headerGood_of_checks hlen hmagic htag hchan

/-! The good header. -/

/-- `s` with the descriptor of the header in IN (R103). -/
def State.headerDescribed (s : State) : State :=
  s.setDescriptor (s.inWord 4) (s.inWord 8) (modeOfHeader (Memory.read s.inMem 12) (Memory.read s.inMem 13))

/-- The descriptor of a good header says what the header says. -/
theorem describes_of_headerGood {s t : State} (h : s.headerGood) (hd : SameDescriptor s.headerDescribed t) :
    s.describes t := by
  obtain ⟨-, -, htag, -⟩ := h
  obtain ⟨hw, hh, hmode⟩ := hd
  exact ⟨hw ▸ inWord_toNat s 4, hh ▸ inWord_toNat s 8, hmode ▸ modeOfHeader_toNat _ htag⟩

/-- `PARSE_HEADER` accepts a header by writing the descriptor and finishing (R104). -/
theorem headerAccepted_parseHeader {s : State} (hc : s.cmd = .parseHeader) :
    s.headerAccepted = s.headerDescribed.finish := by
  rw [State.headerAccepted, State.acceptHeader, hc, State.headerDescribed]

/-- `DECODE` accepts a header by writing the descriptor and entering the decode at offset 14 (R105). -/
theorem headerAccepted_decode {s : State} (hc : s.cmd = .decode) :
    s.headerAccepted = s.headerDescribed.decodeEntry 14 := by
  rw [State.headerAccepted, State.acceptHeader, hc]
  rfl

/-- With a good header the step of `PARSE_HEADER` writes the descriptor and finishes. -/
theorem step_parseHeader_good {s : State} (hm : s.moves = []) (hp : s.phase = .hdr) (hc : s.cmd = .parseHeader)
    (hgood : s.headerGood) : step s = .next s.headerDescribed.finish := by
  rw [step_headerParse hm hp, headerParse_good hgood, headerAccepted_parseHeader hc]

/-- Settles O24: the step writes the descriptor, which says what the header says, and finishes. -/
theorem parseHeaderWritesTheDescriptor : Obligations.ParseHeaderWritesTheDescriptor := by
  intro s hm hp hc hgood
  exact ⟨_, step_parseHeader_good hm hp hc hgood, describes_of_headerGood hgood ⟨rfl, rfl, rfl⟩, rfl⟩

/-- Settles O25: the good header is accepted, and the decode entry, at the header's width, height and channel count, ends
in one of its three ways. -/
theorem decodeEntersAtFourteen : Obligations.DecodeEntersAtFourteen := by
  intro s hm hp hc hgood hdone herr hcode
  rw [step_headerParse hm hp, headerParse_good hgood, headerAccepted_decode hc]
  obtain ⟨-, -, -, hchan⟩ := id hgood
  have hclear : StatusReset s.headerDescribed := ⟨hdone, herr, hcode⟩
  have hw : s.headerDescribed.width.toNat = inNumber s 4 := inWord_toNat s 4
  have hh : s.headerDescribed.height.toNat = inNumber s 8 := inWord_toNat s 8
  have hcount : (channelsOfMode s.headerDescribed.mode).count = headerChannels s :=
    channelsOfMode_modeOfHeader hchan _
  have hempty : s.headerDescribed.width = 0 ∨ s.headerDescribed.height = 0 ↔ inNumber s 4 = 0 ∨ inNumber s 8 = 0 := by
    rw [← hw, ← hh]
    exact or_congr BitVec.toNat_eq BitVec.toNat_eq
  obtain ⟨hcmd, hacq, hpc, hout, hrun, hsize, hch, hin, hdesc⟩ := decodeEntry_loaded 14 s.headerDescribed
  refine ⟨_, rfl, describes_of_headerGood hgood hdesc, hacq, hcmd.trans hc, hpc, hout, hrun, hch ▸ hcount,
    by rw [hsize, hw, hh, hcount], { hin with }, ?_⟩
  rw [hsize]
  split_ifs with hzero hsmall
  · exact decodeEntry_empty hclear 14 (hempty.2 hzero)
  · exact decodeEntry_small hclear 14 (mt hempty.1 hzero) hsmall
  · exact decodeEntry_fits hclear 14 (mt hempty.1 hzero) (Nat.not_lt.1 hsmall)

/-! `PARSE_HEADER` again. -/

/-- A command started again after an error of its header parse finds the state that the first start left. -/
theorem headerDue_raise (c : Command) (e : ErrorKind) (s : State) :
    ((s.headerDue c).raise e).headerDue c = s.headerDue c := rfl

/-- A command started again after its header parse finds the state that the first start left, but for the descriptor. -/
theorem headerDue_finish (c : Command) (s : State) :
    ((s.headerDue c).headerDescribed.finish).headerDue c = (s.headerDue c).headerDescribed := rfl

/-- The descriptor is no input of the header parse: writing it twice is writing it once. -/
theorem headerDescribed_idem (s : State) : s.headerDescribed.headerDescribed = s.headerDescribed := rfl

/-- Settles O26: the second start finds the state that the first one left, but for the descriptor of a good header, which
the header parse does not look at and writes again. -/
theorem parseHeaderTwiceEndsAlike : Obligations.ParseHeaderTwiceEndsAlike := by
  intro s ⟨hp, ho⟩ hm
  have hstart := exec_parseHeader ⟨hp, ho⟩
  rcases headerParse_cases (s.headerDue .parseHeader) with ⟨e, h⟩ | hgood
  · have hfirst := (step_headerParse (s := s.headerDue .parseHeader) hm rfl).trans h
    exact ⟨_, _, hstart, hfirst, rfl, _, exec_parseHeader ⟨rfl, ho⟩, by rw [headerDue_raise, hfirst]⟩
  · have hfirst := step_parseHeader_good (s := s.headerDue .parseHeader) hm rfl rfl hgood
    have hsecond := step_parseHeader_good (s := (s.headerDue .parseHeader).headerDescribed) hm rfl rfl hgood
    rw [headerDescribed_idem] at hsecond
    exact ⟨_, _, hstart, hfirst, rfl, _, exec_parseHeader ⟨rfl, ho⟩, by rw [headerDue_finish, hsecond]⟩

end Sys2Proof.Machine
end

section
/-! PROOFS. The commands (40_commands.md): what OUT held at and beyond the pixel cursor, and what the host read, never
reaches the core. -/

namespace Sys2Proof.Machine

/-- `s` with other bytes in OUT and another host's side: what the core does not see. -/
def State.withOutput (m : Memory) (acq : Bool) (w : Word32) (n : Nat) (s : State) : State :=
  { s with outMem := m, acquired := acq, hostData := w, draws := n }

/-- Two states that decode alike, each with OUT in canonical form. -/
structure DecodesAlike (s t : State) : Prop extends SameDecode s t where
  wfLeft : Memory.wf s.outMem
  wfRight : Memory.wf t.outMem

/-- Wherever the first answers a next state, the second answers one that decodes alike. -/
def AnswersAlike (o p : Out) : Prop := ∀ s, o = .next s → ∃ t, p = .next t ∧ DecodesAlike s t

theorem DecodesAlike.next {s t : State} (h : DecodesAlike s t) : AnswersAlike (.next s) (.next t) := by
  rintro _ ⟨⟩
  exact ⟨t, rfl, h⟩

theorem AnswersAlike.fault {f g : Fault} : AnswersAlike (.fault f) (.fault g) := nofun

/-- Two choices by the same condition are related where both their branches are. -/
theorem rel_ite {α : Type} {R : α → α → Prop} {c : Prop} [Decidable c] {a b a' b' : α} (ht : c → R a a')
    (he : ¬c → R b b') : R (if c then a else b) (if c then a' else b') := by
  split
  · exact ht ‹_›
  · exact he ‹_›

/-- A state that decodes alike is the same state with another output. -/
theorem SameDecode.exists_withOutput {s t : State} (h : SameDecode s t) :
    ∃ m acq w n, t = s.withOutput m acq w n := ⟨_, _, _, _, h.registers⟩

/-! The changes of state that a step of the core is made of. -/

/-- A change that neither sees nor writes OUT and the host's side, and does not advance the pixel cursor, keeps two states
alike. -/
theorem DecodesAlike.map {s t : State} (h : DecodesAlike s t) (g : State → State)
    (hg : ∀ m acq w n, g (s.withOutput m acq w n) = (g s).withOutput m acq w n) (hm : (g s).outMem = s.outMem)
    (hc : (g s).outCursor.toNat ≤ s.outCursor.toNat) : DecodesAlike (g s) (g t) := by
  obtain ⟨m, acq, w, n, rfl⟩ := h.exists_withOutput
  rw [hg]
  exact ⟨⟨rfl, fun a ha => hm ▸ h.written a (ha.trans_le hc)⟩, hm ▸ h.wfLeft, h.wfRight⟩

theorem DecodesAlike.raise {s t : State} (h : DecodesAlike s t) (e : ErrorKind) : DecodesAlike (s.raise e) (t.raise e) :=
  h.map (State.raise e) (fun _ _ _ _ => rfl) rfl le_rfl

theorem DecodesAlike.finish {s t : State} (h : DecodesAlike s t) : DecodesAlike s.finish t.finish :=
  h.map State.finish (fun _ _ _ _ => rfl) rfl le_rfl

/-- The decode entry sets the pixel cursor back to 0, below which OUT has no byte. -/
theorem DecodesAlike.decodeEntry {s t : State} (h : DecodesAlike s t) (p : Word32) :
    DecodesAlike (s.decodeEntry p) (t.decodeEntry p) := by
  have hload : DecodesAlike (s.loadDecode p) (t.loadDecode p) :=
    h.map (State.loadDecode p) (fun _ _ _ _ => rfl) rfl (Nat.zero_le _)
  have hinit := hload.map State.initDecode (fun _ _ _ _ => rfl) rfl le_rfl
  obtain ⟨m, acq, w, n, rfl⟩ := h.exists_withOutput
  exact rel_ite (fun _ => hload.finish) fun _ => rel_ite (fun _ => hload.raise _) fun _ => hinit

theorem DecodesAlike.acceptHeader {s t : State} (h : DecodesAlike s t) (w hgt : Word32) (mode : BitVec 2) :
    DecodesAlike (s.acceptHeader w hgt mode) (t.acceptHeader w hgt mode) := by
  have hd := h.map (State.setDescriptor w hgt mode) (fun _ _ _ _ => rfl) rfl le_rfl
  have hcmd : t.cmd = s.cmd := by rw [h.registers]
  unfold State.acceptHeader
  rw [hcmd]
  cases s.cmd with
  | parseHeader => exact hd.finish
  | decode | decodeWithDescriptor => exact hd.decodeEntry _

theorem DecodesAlike.checkHeader {s t : State} (h : DecodesAlike s t) (magic w hgt : Word32) (chan cs : Byte) :
    DecodesAlike (s.checkHeader magic w hgt chan cs) (t.checkHeader magic w hgt chan cs) := by
  obtain ⟨m, acq, w, n, rfl⟩ := h.exists_withOutput
  exact rel_ite (fun _ => h.raise _) fun _ => rel_ite (fun _ => h.raise _) fun _ => rel_ite (fun _ => h.raise _)
    fun _ => h.acceptHeader ..

/-- The same bytes written at the pixel cursor of two states alike below it leave their outputs alike up to the end of
those bytes. -/
theorem read_writeBytes_alike {m m' : Memory} {c : Nat} {vs : List Byte} (hm : Memory.wf m) (hm' : Memory.wf m')
    (h : ∀ a, a < c → Memory.read m' a = Memory.read m a) (hroom : c + vs.length ≤ 2 ^ 32) {a : Nat}
    (ha : a < c + vs.length) :
    Memory.read (Memory.writeBytes m' c vs) a = Memory.read (Memory.writeBytes m c vs) a := by
  by_cases hc : a < c
  · rw [Memory.read_writeBytes_other _ _ _ (.inl hc), Memory.read_writeBytes_other _ _ _ (.inl hc), h a hc]
  · obtain ⟨k, rfl⟩ := Nat.exists_eq_add_of_le (Nat.not_lt.1 hc)
    have hk : k < vs.length := by omega
    rw [Memory.read_writeBytes_inside hm' hroom hk, Memory.read_writeBytes_inside hm hroom hk]

/-- A change that writes one pixel at the pixel cursor, and sees nothing else of OUT and of the host's side, keeps two
states alike. -/
theorem DecodesAlike.write {s t : State} (h : DecodesAlike s t) (hroom : s.roomForPixel) (q : Pixel) (g : State → State)
    (hg : ∀ m acq w n, g (s.withOutput m acq w n) =
      (g s).withOutput (Memory.writeBytes m s.outCursor.toNat (outputBytes s.ch q)) acq w n)
    (hm : (g s).outMem = Memory.writeBytes s.outMem s.outCursor.toNat (outputBytes s.ch q))
    (hc : (g s).outCursor = s.outCursor + BitVec.ofNat 32 s.ch.count) : DecodesAlike (g s) (g t) := by
  have hl := s.outLen.isLt
  have hfit : s.outCursor.toNat + (outputBytes s.ch q).length ≤ 2 ^ 32 := by
    rw [outputBytes_length]
    omega
  obtain ⟨m, acq, w, n, rfl⟩ := h.exists_withOutput
  rw [hg]
  refine ⟨⟨rfl, fun a ha => ?_⟩, hm ▸ emit_wf h.wfLeft hroom q, Memory.wf_writeBytes h.wfRight hfit⟩
  rw [hc, outCursor_advance hroom] at ha
  rw [hm]
  exact read_writeBytes_alike h.wfLeft h.wfRight h.written hfit (by rwa [outputBytes_length])

/-! The answers of the core, operation by operation. -/

theorem DecodesAlike.completeToken {s t : State} (h : DecodesAlike s t) (len : Nat) (q : Pixel) :
    AnswersAlike (completeToken len q s) (completeToken len q t) := by
  have hdone (hroom : s.roomForPixel) : DecodesAlike (s.tokenDone len q) (t.tokenDone len q) :=
    h.write hroom (s.settleAlpha q) (State.tokenDone len q) (fun _ _ _ _ => rfl) rfl rfl
  rw [completeToken_eq, completeToken_eq]
  obtain ⟨m, acq, w, n, rfl⟩ := h.exists_withOutput
  exact rel_ite (fun hroom => (hdone hroom).next) fun _ => .fault

theorem DecodesAlike.runRepetition {s t : State} (h : DecodesAlike s t) :
    AnswersAlike (runRepetition s) (runRepetition t) := by
  have hdone (hroom : s.roomForPixel) : DecodesAlike s.repeated t.repeated :=
    h.write hroom s.px State.repeated (fun _ _ _ _ => rfl) rfl rfl
  rw [runRepetition_eq, runRepetition_eq]
  obtain ⟨m, acq, w, n, rfl⟩ := h.exists_withOutput
  exact rel_ite (fun _ => (h.raise _).next) fun _ => rel_ite (fun hroom => (hdone hroom).next) fun _ => .fault

/-- A token's pixel does not depend on OUT and on the host's side. -/
theorem SameDecode.pixelOf {s t : State} (h : SameDecode s t) (i : Instr) : pixelOf t i = pixelOf s i := by
  obtain ⟨m, acq, w, n, rfl⟩ := h.exists_withOutput
  cases i <;> rfl

/-- A token that the dispatcher gives is run alike: it completes with the same pixel, or starts the same run. -/
theorem DecodesAlike.runToken {s t : State} (h : DecodesAlike s t) (bytes : List Byte) :
    AnswersAlike (runToken s bytes) (runToken t bytes) := by
  cases hd : decodeToken bytes with
  | error r =>
    simp only [Machine.runToken, hd]
    exact .fault
  | ok answer =>
    obtain ⟨i, rest⟩ := answer
    cases bytes with
    | nil => cases hd
    | cons b0 tail =>
      rw [runToken_ok hd, runToken_ok hd]
      rcases decodeToken_shape hd s with ⟨q, hq⟩ | ⟨l, rfl, -, -⟩
      · rw [exec_of_pixelOf hq, exec_of_pixelOf ((h.pixelOf i).trans hq)]
        exact h.completeToken _ _
      · exact (h.map (State.runStarted l) (fun _ _ _ _ => rfl) rfl le_rfl).next

/-- The fetch reads IN alone, which the two states share. -/
theorem DecodesAlike.fetchToken {s t : State} (h : DecodesAlike s t) (hg : s.pc.toNat < s.inLen.toNat) :
    AnswersAlike (fetchToken s) (fetchToken t) := by
  obtain ⟨m, acq, w, n, rfl⟩ := h.exists_withOutput
  rw [fetchToken_eq hg, fetchToken_eq (s := s.withOutput m acq w n) hg]
  exact rel_ite (fun _ => (h.raise _).next) fun _ => h.runToken _

theorem DecodesAlike.loopStep {s t : State} (h : DecodesAlike s t) : AnswersAlike (loopStep s) (loopStep t) := by
  obtain ⟨m, acq, w, n, rfl⟩ := h.exists_withOutput
  refine rel_ite (fun _ => h.finish.next) fun _ => rel_ite (fun _ => (h.raise _).next) fun hg => h.fetchToken ?_
  have hleft : (s.params.padLen : Int) < s.bytesLeft := Int.not_le.1 hg
  unfold State.bytesLeft at hleft
  omega

theorem DecodesAlike.headerParse {s t : State} (h : DecodesAlike s t) :
    AnswersAlike (headerParse s) (headerParse t) := by
  rw [headerParse_eq, headerParse_eq]
  obtain ⟨m, acq, w, n, rfl⟩ := h.exists_withOutput
  exact rel_ite (fun _ => (h.raise _).next) fun _ => (h.checkHeader ..).next

/-- A step of the core keeps two states alike. -/
theorem DecodesAlike.coreStep {s t : State} (h : DecodesAlike s t) : AnswersAlike (coreStep s) (coreStep t) := by
  have hphase : t.phase = s.phase := by rw [h.registers]
  unfold Machine.coreStep
  rw [hphase]
  cases s.phase with
  | idle => exact h.next
  | hdr => exact h.headerParse
  | loop => exact h.loopStep
  | run => exact h.runRepetition

/-! Any number of steps of the core, the host having no move to come. -/

/-- A step of the core begins a run. -/
theorem run_succ_of_coreStep {s t : State} (hm : s.moves = []) (h : coreStep s = .next t) (k : Nat) :
    Host.Core.run core (k + 1) s = Host.Core.run core k t := by
  have hstep : core.step s = .next t := (step_core hm).trans h
  simp only [Host.Core.run, hstep]

/-- A run that answers a next state begins with a step of the core that does. -/
theorem coreStep_of_run_succ {k : Nat} {s u : State} (hm : s.moves = [])
    (h : Host.Core.run core (k + 1) s = .next u) :
    ∃ t, coreStep s = .next t ∧ Host.Core.run core k t = .next u := by
  have hstep : core.step s = coreStep s := step_core hm
  simp only [Host.Core.run, hstep] at h
  split at h
  case h_1 t ht => exact ⟨t, ht, h⟩
  all_goals cases h

/-- Any number of steps of the core keep two states alike. -/
theorem DecodesAlike.run {k : Nat} {s t s' : State} (h : DecodesAlike s t) (hm : s.moves = [])
    (hrun : Host.Core.run core k s = .next s') : ∃ t', Host.Core.run core k t = .next t' ∧ DecodesAlike s' t' := by
  induction k generalizing s t with
  | zero =>
    cases hrun
    exact ⟨t, rfl, h⟩
  | succ k ih =>
    obtain ⟨s₁, hs₁, hrest⟩ := coreStep_of_run_succ hm hrun
    obtain ⟨t₁, ht₁, h₁⟩ := h.coreStep s₁ hs₁
    have hmt : t.moves = [] := by rw [h.registers, hm]
    rw [run_succ_of_coreStep hmt ht₁]
    exact ih h₁ ((coreMove_frame (coreMove_of_next hs₁)).moves.trans hm) hrest

/-- Settles O58: the two states are alike with their outputs in canonical form, and every step of the core keeps them so. -/
theorem earlierOutputNeverReachesTheCore : Obligations.EarlierOutputNeverReachesTheCore := by
  intro k s₁ s₂ t₁ h hw₁ hw₂ hm hrun
  obtain ⟨t₂, hrun₂, ht⟩ := DecodesAlike.run ⟨h, hw₁, hw₂⟩ hm hrun
  exact ⟨t₂, hrun₂, ht.toSameDecode⟩

end Sys2Proof.Machine
end

section
/-! PROOFS. The decode loop (41_decode_loop.md): the end test, the guard, the token at `pc`, and where a step of the core
leaves the byte cursor. -/

namespace Sys2Proof.Machine

/-! The token at `pc`. -/

/-- A token's bytes begin with a first byte that says how many they are (30_encoding.md R75). -/
theorem bytes_eq_cons {i : Instr} (ht : i.isToken = true) (hw : i.wellFormed = true) :
    ∃ b0 tail, i.bytes = b0 :: tail ∧ tokenLength b0 = tail.length + 1 := by
  have hdec := decodeToken_bytes hw ht []
  rw [List.append_nil] at hdec
  cases hb : i.bytes with
  | nil =>
    rw [hb] at hdec
    cases hdec
  | cons b0 tail =>
    rw [hb] at hdec
    exact ⟨b0, tail, rfl, (Nat.zero_add _).symm.trans (decodeFields_token hdec).2⟩

/-- The first byte of a token that stands in IN gives the token's length. -/
theorem tokenLength_of_holds {i : Instr} {s : State} {a : Nat} (ht : i.isToken = true) (hw : i.wellFormed = true)
    (hb : s.holds a i.bytes) : tokenLength (Memory.read s.inMem a) = i.bytes.length := by
  obtain ⟨b0, tail, he, hlen⟩ := bytes_eq_cons ht hw
  rw [he] at hb ⊢
  have hfirst : Memory.read s.inMem a = b0 := hb 0 (Nat.zero_lt_succ _)
  rw [hfirst, hlen, List.length_cons]

/-- With a legal `PAD_LEN`, IN goes on past the guard for as long as the longest token (R124). -/
theorem five_le_of_guard {s : State} (hl : s.params.legal) (hg : s.pc.toNat + s.params.padLen < s.inLen.toNat) :
    s.pc.toNat + 5 ≤ s.inLen.toNat := by
  unfold Params.legal at hl
  omega

/-- With a legal `PAD_LEN` the token at `pc` lies inside IN (R125). -/
theorem token_inside_of_guard {s : State} (hl : s.params.legal) (hg : s.pc.toNat + s.params.padLen < s.inLen.toNat) :
    s.pc.toNat + tokenLength (Memory.read s.inMem s.pc.toNat) ≤ s.inLen.toNat := by
  have h5 := five_le_of_guard hl hg
  have hlen := tokenLength_cases (Memory.read s.inMem s.pc.toNat)
  omega

/-- Past the end test and the guard, the core's step is the exec of the token that stands at `pc` (R125). -/
theorem coreStep_token {i : Instr} {s : State} (hl : s.params.legal) (hdue : s.tokenDue) (ht : i.isToken = true)
    (hw : i.wellFormed = true) (hb : s.holds s.pc.toNat i.bytes) : coreStep s = exec i s := by
  obtain ⟨hp, hne, hg⟩ := hdue
  have hin := token_inside_of_guard hl hg
  have hfetch : coreStep s = fetchToken s := by
    simp only [coreStep, hp]
    rcases loopStep_cases s with ⟨he, -⟩ | ⟨-, hpad, -⟩ | ⟨-, -, h⟩
    · exact absurd he hne
    · omega
    · exact h
  have hread := memRead_holds hb (tokenLength_of_holds ht hw hb ▸ hin)
  rw [← tokenLength_of_holds ht hw hb, memRead_inside hin, Option.some.injEq] at hread
  rw [hfetch, fetchToken_eq (by omega), if_neg (Nat.not_lt.2 hin), hread]
  exact runToken_ok (List.append_nil i.bytes ▸ decodeToken_bytes hw ht [])

/-- At `decoded_size` the core's step finishes (R123). -/
theorem coreStep_loopEnd {s : State} (hp : s.phase = .loop) (he : s.outCursor.toNat = s.decodedSize) :
    coreStep s = .next s.finish := by
  simp only [coreStep, hp, loopStep, if_pos he]

/-! The byte cursor. -/

/-- A token inside IN moves the byte cursor without wrapping (R133). -/
theorem pc_advance {s : State} {len : Nat} (h : s.pc.toNat + len ≤ s.inLen.toNat) :
    (s.pc + BitVec.ofNat 32 len).toNat = s.pc.toNat + len := by
  have hl := s.inLen.isLt
  rw [BitVec.toNat_add, BitVec.toNat_ofNat]
  omega

/-- A header that passes leaves the byte cursor, or loads it with the offset of the stream after the header (R105). -/
theorem acceptHeader_pc (w hgt : Word32) (mode : BitVec 2) (s : State) :
    (s.acceptHeader w hgt mode).pc = s.pc ∨ (s.acceptHeader w hgt mode).pc = 14 := by
  unfold State.acceptHeader
  cases s.cmd with
  | parseHeader => exact .inl rfl
  | decode | decodeWithDescriptor => exact .inr (decodeEntry_loaded _ _).pc

/-- Settles O27: the end test comes first. -/
theorem loopEndsAtDecodedSize : Obligations.LoopEndsAtDecodedSize :=
  fun _ hm hp he => (step_core hm).trans (coreStep_loopEnd hp he)

/-- Settles O28: the guard is the loop's second case, and the longest token is one byte more than the least legal `PAD_LEN`. -/
theorem guardRaisesDataTooSmall : Obligations.GuardRaisesDataTooSmall := by
  intro s hm hp hne
  refine ⟨fun hleft => ?_, fun hleft hl => ?_⟩
  · have hloop : coreStep s = loopStep s := by simp only [coreStep, hp]
    rw [step_core hm, hloop]
    rcases loopStep_cases s with ⟨he, -⟩ | ⟨-, -, h⟩ | ⟨-, hg, -⟩
    · exact absurd he hne
    · exact h
    · omega
  · have hg : s.pc.toNat + s.params.padLen < s.inLen.toNat := by omega
    exact ⟨five_le_of_guard hl hg, token_inside_of_guard hl hg⟩

/-- Settles O29: the fetch reads the token's bytes, which the decoder gives back as the token. -/
theorem stepRunsTheTokenAtPc : Obligations.StepRunsTheTokenAtPc :=
  fun _ _ hm hl hdue ht hw hb => (step_core hm).trans (coreStep_token hl hdue ht hw hb)

/-- Settles O55: only a token and a header parse write the byte cursor, and a token that runs lies inside IN. -/
theorem byteCursorOnlyAdvances : Obligations.ByteCursorOnlyAdvances := by
  intro s t _ hm h
  cases coreMove_of_next (step_core hm ▸ h)
  case wait | headerError | loopEnd | guard | short | runEnd | repetition => exact .inl rfl
  case headerDone w hgt mode hp _ => exact (acceptHeader_pc w hgt mode s).imp_right fun hpc => .inr ⟨hp, hpc⟩
  case token q hdue hin _ =>
    have hpc := pc_advance hin
    exact .inr (.inl ⟨hdue, hpc, hpc.trans_le hin⟩)
  case runToken l hdue _ hlen hin =>
    have hpc := pc_advance hin
    exact .inr (.inl ⟨hdue, hpc.trans (by rw [hlen]), hpc.trans_le hin⟩)

end Sys2Proof.Machine
end

section
/-! PROOFS. The decode loop (41_decode_loop.md): every command ends (R134), because each step of the core leaves fewer steps
to come. -/

namespace Sys2Proof.Machine

/-- A bound on the core steps a command has left: the token at each byte left in IN, with 62 repetitions where it is a run,
the repetitions left of the run under way, and the last step; before them a header parse. -/
def State.stepsLeft (s : State) : Nat :=
  match s.phase with
  | .idle => 0
  | .hdr => 63 * s.inLen.toNat + 2
  | .loop | .run => 63 * (s.inLen.toNat - s.pc.toNat) + s.runLeft.toNat + 1

theorem stepsLeft_idle {s : State} (h : s.phase = .idle) : s.stepsLeft = 0 := by simp only [State.stepsLeft, h]

theorem stepsLeft_hdr {s : State} (h : s.phase = .hdr) : s.stepsLeft = 63 * s.inLen.toNat + 2 := by
  simp only [State.stepsLeft, h]

theorem stepsLeft_decoding {s : State} (h : s.decoding) :
    s.stepsLeft = 63 * (s.inLen.toNat - s.pc.toNat) + s.runLeft.toNat + 1 := by
  rcases h with h | h <;> simp only [State.stepsLeft, h]

theorem stepsLeft_pos {s : State} (h : s.phase ≠ .idle) : 0 < s.stepsLeft := by
  cases hp : s.phase with
  | idle => exact absurd hp h
  | hdr => simp [stepsLeft_hdr hp]
  | loop => simp [stepsLeft_decoding (.inl hp)]
  | run => simp [stepsLeft_decoding (.inr hp)]

/-- The bound of R134, from every state with the invariant. -/
theorem stepsLeft_le {s : State} (hi : MachineInv s) : s.stepsLeft ≤ 63 * s.inLen.toNat + 64 := by
  have hb := hi.runBound
  cases hp : s.phase with
  | idle => simp [stepsLeft_idle hp]
  | hdr => simp [stepsLeft_hdr hp]
  | loop =>
    rw [stepsLeft_decoding (.inl hp)]
    omega
  | run =>
    rw [stepsLeft_decoding (.inr hp)]
    omega

/-- A decode entry ends the command or stands before the loop's first token, with no repetition left. -/
theorem decodeEntry_stepsLeft_le (p : Word32) (s : State) : (s.decodeEntry p).stepsLeft ≤ 63 * s.inLen.toNat + 1 := by
  rcases decodeEntry_cases p s with ⟨-, e⟩ | ⟨-, -, e⟩ | ⟨-, -, e⟩ <;> rw [e]
  · exact Nat.zero_le _
  · exact Nat.zero_le _
  · exact Nat.succ_le_succ (Nat.mul_le_mul_left 63 (Nat.sub_le _ _))

/-- A header that passes ends the command or enters the decode. -/
theorem acceptHeader_stepsLeft_le (w hgt : Word32) (mode : BitVec 2) (s : State) :
    (s.acceptHeader w hgt mode).stepsLeft ≤ 63 * s.inLen.toNat + 1 := by
  unfold State.acceptHeader
  cases s.cmd with
  | parseHeader => exact Nat.zero_le _
  | decode | decodeWithDescriptor => exact decodeEntry_stepsLeft_le _ _

/-- A repetition that fits leaves one less of those left. -/
theorem repeated_runLeft_succ {s : State} (h : s.runLeft ≠ 0) : s.repeated.runLeft.toNat + 1 = s.runLeft.toNat := by
  have hne : s.runLeft.toNat ≠ 0 := fun h0 => h (BitVec.eq_of_toNat_eq h0)
  rw [repeated_runLeft, runLeft_pred_toNat h]
  omega

/-- A repetition that fits leaves the decode under way. -/
theorem repeated_decoding (s : State) : s.repeated.decoding := by
  rw [State.decoding, repeated_phase]
  split
  · exact .inl rfl
  · exact .inr rfl

/-- Every step of the core in a command leaves fewer steps to come: the command ends, the header parse is done, the byte
cursor passes a token, or the run has one repetition less. -/
theorem coreMove_stepsLeft_lt {s t : State} (hi : MachineInv s) (hp : s.phase ≠ .idle) (h : CoreMove s t) :
    t.stepsLeft < s.stepsLeft := by
  cases h
  case wait hidle => exact absurd hidle hp
  case headerError | loopEnd | guard | short | runEnd => exact stepsLeft_pos hp
  case headerDone w hgt mode hhdr _ =>
    rw [stepsLeft_hdr hhdr]
    exact Nat.lt_succ_of_le (acceptHeader_stepsLeft_le w hgt mode s)
  case token q hdue hin _ =>
    have hpc := pc_advance hin
    have hlen := tokenLength_cases (Memory.read s.inMem s.pc.toNat)
    rw [stepsLeft_decoding (.inl hdue.1), stepsLeft_decoding (.inl (tokenDone_phase _ q s))]
    simp only [tokenDone_pc, tokenDone_inLen, tokenDone_runLeft, hpc]
    omega
  case runToken l hdue hl _ hin =>
    have hpc : (s.pc + 1).toNat = s.pc.toNat + 1 := pc_advance hin
    rw [stepsLeft_decoding (.inl hdue.1), stepsLeft_decoding (.inr (runStarted_phase l s))]
    simp only [runStarted_pc, runStarted_inLen, runStarted_runLeft, hpc, runCount_toNat hl]
    omega
  case repetition hrun _ _ =>
    have hleft := repeated_runLeft_succ (hi.runBusy hrun)
    rw [stepsLeft_decoding (.inr hrun), stepsLeft_decoding (repeated_decoding s), repeated_pc, repeated_inLen]
    omega

/-- With no host move to come, as many core steps as are left end the command, and what every step of the core keeps holds
at its end. -/
theorem run_ends {P : State → Prop} (hkeep : ∀ s t, MachineInv s → P s → coreStep s = .next t → P t) {n : Nat} {s : State}
    (hi : MachineInv s) (hm : s.moves = []) (hn : s.stepsLeft ≤ n) (hP : P s) :
    ∃ t, Host.Core.run core n s = .next t ∧ t.phase = .idle ∧ P t := by
  induction n generalizing s with
  | zero =>
    have hidle : s.phase = .idle := by
      by_contra hp
      exact absurd (stepsLeft_pos hp) (Nat.not_lt.2 hn)
    exact ⟨s, rfl, hidle, hP⟩
  | succ n ih =>
    obtain ⟨t, ht⟩ := coreStep_next hi
    have hmove := coreMove_of_next ht
    have hleft : t.stepsLeft ≤ n := by
      by_cases hp : s.phase = .idle
      · rw [coreMove_idle hmove hp, stepsLeft_idle hp]
        exact Nat.zero_le n
      · exact Nat.le_of_lt_succ ((coreMove_stepsLeft_lt hi hp hmove).trans_le hn)
    rw [run_succ_of_coreStep hm ht]
    exact ih (coreMove_inv hi hmove) ((coreMove_frame hmove).moves.trans hm) hleft (hkeep s t hi hP ht)

/-- Where a machine that is idle has ended its command, so has it after a step of the core. -/
theorem coreStep_keeps_ended {s t : State} (hi : MachineInv s) (h : s.phase = .idle → s.ended)
    (ht : coreStep s = .next t) : t.phase = .idle → t.ended := by
  have hmove := coreMove_of_next ht
  by_cases hp : s.phase = .idle
  · exact coreMove_idle hmove hp ▸ h
  · exact coreMove_ended (hi.clear hp) hp hmove

/-- Settles O56: at most `63 * IN_LEN + 64` steps are left, and the last one sets exactly one of `DONE` and `ERR`. -/
theorem everyCommandEnds : Obligations.EveryCommandEnds := by
  intro s hi hm hp
  obtain ⟨t, hrun, hidle, hended⟩ := run_ends (P := fun u => u.phase = .idle → u.ended)
    (fun _ _ => coreStep_keeps_ended) hi hm (stepsLeft_le hi) fun hidle => absurd hidle hp
  exact ⟨t, hrun, hended hidle⟩

end Sys2Proof.Machine
end

section
/-! PROOFS. The decode loop (41_decode_loop.md): a stream that gives exactly the missing pixels decodes with success
(R135). -/

namespace Sys2Proof.Machine

/-! A stream of tokens in IN. -/

/-- Every token gives a pixel, or is a run in range. -/
theorem token_cases {i : Instr} (ht : i.isToken = true) (hw : i.wellFormed = true) (s : State) :
    (pixelCount i = 1 ∧ ∃ q, pixelOf s i = some (i.bytes.length, q)) ∨ ∃ l, i = .run l ∧ l.toNat ≤ 61 := by
  cases i with
  | rgb | rgba | index | diff | luma => exact .inl ⟨rfl, _, rfl⟩
  | run l => exact .inr ⟨l, rfl, of_decide_eq_true hw⟩
  | parseHeader | decode | decodeWithDescriptor => cases ht

theorem pixelCount_pos {i : Instr} (ht : i.isToken = true) : 0 < pixelCount i := by
  cases i with
  | parseHeader | decode | decodeWithDescriptor => cases ht
  | run l => exact Nat.zero_lt_succ _
  | rgb | rgba | index | diff | luma => exact Nat.zero_lt_one

theorem streamBytes_cons (i : Instr) (is : List Instr) : streamBytes (i :: is) = i.bytes ++ streamBytes is := rfl

theorem streamPixels_cons (i : Instr) (is : List Instr) : streamPixels (i :: is) = pixelCount i + streamPixels is :=
  List.sum_cons

/-- Bytes stand in IN one after the other so each part stands in its place. -/
theorem holds_append {s : State} {a : Nat} {bs cs : List Byte} (h : s.holds a (bs ++ cs)) :
    s.holds a bs ∧ s.holds (a + bs.length) cs := by
  refine ⟨fun k hk => ?_, fun k hk => ?_⟩
  · rw [h k (by rw [List.length_append]; omega), List.getElem_append_left hk]
  · rw [Nat.add_assoc, h (bs.length + k) (by rw [List.length_append]; omega),
      List.getElem_append_right (Nat.le_add_right _ _)]
    simp only [Nat.add_sub_cancel_left]

/-- What is left of a conforming stream: `tokens` stand at `pc` and end at `stop` with `PAD_LEN` bytes after them, and
their pixels and the repetitions left are exactly those missing to `size`. -/
structure StreamLeft (size stop : Nat) (tokens : List Instr) (s : State) : Prop where
  legal : ∀ i ∈ tokens, i.isToken = true ∧ i.wellFormed = true
  total : s.decodedSize = size
  pixels : s.outCursor.toNat + (s.runLeft.toNat + streamPixels tokens) * s.ch.count = size
  bytes : s.holds s.pc.toNat (streamBytes tokens)
  ends : s.pc.toNat + (streamBytes tokens).length = stop
  padded : stop + s.params.padLen ≤ s.inLen.toNat

/-- A decode over a conforming stream: under way with some tokens left, or ended with success. -/
inductive Conforms (size stop : Nat) (s : State) : Prop where
  | decoding (tokens : List Instr) (h : s.decoding) (hs : StreamLeft size stop tokens s)
  | done (h : s.succeeded) (ho : s.outCursor.toNat = size) (hpc : s.pc.toNat = stop)

namespace StreamLeft

/-- Where pixels are still to come, the decode is short of its end by at least one. -/
theorem pixel_missing {size stop : Nat} {tokens : List Instr} {s : State} (h : StreamLeft size stop tokens s)
    (hpos : 0 < s.runLeft.toNat + streamPixels tokens) : s.outCursor.toNat + s.ch.count ≤ s.decodedSize := by
  have hle := Nat.le_mul_of_pos_left s.ch.count hpos
  have := h.pixels
  rw [h.total]
  omega

variable {size stop : Nat} {i : Instr} {is : List Instr} {s : State}

/-- A loop with tokens left is past its end test and its guard. -/
theorem tokenDue (h : StreamLeft size stop (i :: is) s) (hp : s.phase = .loop) : s.tokenDue := by
  obtain ⟨ht, hw⟩ := h.legal i List.mem_cons_self
  obtain ⟨b0, tail, hb, -⟩ := bytes_eq_cons ht hw
  have hmissing := h.pixel_missing (by
    rw [streamPixels_cons]
    exact Nat.add_pos_right _ (Nat.add_pos_left (pixelCount_pos ht) _))
  have hcount := s.ch.count_pos
  have hends := h.ends
  have hpad := h.padded
  rw [streamBytes_cons, hb, List.length_append, List.length_cons] at hends
  exact ⟨hp, by omega, by omega⟩

/-- The first token lies inside IN. -/
theorem inside (h : StreamLeft size stop (i :: is) s) : s.pc.toNat + i.bytes.length ≤ s.inLen.toNat := by
  have hends := h.ends
  have hpad := h.padded
  rw [streamBytes_cons, List.length_append] at hends
  omega

/-- A step that passes the first token, and counts its pixels as written or as repetitions, leaves the rest. -/
theorem tail (h : StreamLeft size stop (i :: is) s) {t : State} (hframe : SameForCore s t) (hch : t.ch = s.ch)
    (hsize : t.decodedSize = s.decodedSize) (hpc : t.pc = s.pc + BitVec.ofNat 32 i.bytes.length)
    (hpix : t.outCursor.toNat + t.runLeft.toNat * s.ch.count =
      s.outCursor.toNat + (s.runLeft.toNat + pixelCount i) * s.ch.count) : StreamLeft size stop is t := by
  have hadv : t.pc.toNat = s.pc.toNat + i.bytes.length := hpc ▸ pc_advance h.inside
  have hbytes := h.bytes
  have hends := h.ends
  have hpixels := h.pixels
  rw [streamBytes_cons] at hbytes hends
  rw [streamPixels_cons] at hpixels
  refine ⟨fun j hj => h.legal j (List.mem_cons_of_mem i hj), hsize.trans h.total, ?_, ?_, ?_, ?_⟩
  · rw [hch]
    linarith
  · rw [hadv, State.holds, hframe.inMem]
    exact (holds_append hbytes).2
  · rw [hadv, ← hends, List.length_append, Nat.add_assoc]
  · rw [hframe.params, hframe.inLen]
    exact h.padded

/-- A repetition of a run leaves the same tokens. -/
theorem repeated {tokens : List Instr} (h : StreamLeft size stop tokens s) (hrun : s.runLeft ≠ 0) (hroom : s.roomForPixel) :
    StreamLeft size stop tokens s.repeated := by
  have hpixels := h.pixels
  refine ⟨h.legal, h.total, ?_, h.bytes, h.ends, h.padded⟩
  rw [repeated_outCursor, outCursor_advance hroom, repeated_ch]
  rw [← repeated_runLeft_succ hrun] at hpixels
  linarith

end StreamLeft

/-! A step of the core over a conforming stream. -/

/-- The first token of the stream is run, and leaves the rest. -/
theorem conforms_token {size stop : Nat} {i : Instr} {is : List Instr} {s t : State} (hi : MachineInv s)
    (h : StreamLeft size stop (i :: is) s) (hp : s.phase = .loop) (ht : coreStep s = .next t) : Conforms size stop t := by
  obtain ⟨hok, hw⟩ := h.legal i List.mem_cons_self
  have hdue := h.tokenDue hp
  rw [coreStep_token hi.legal hdue hok hw (holds_append h.bytes).1] at ht
  rcases token_cases hok hw s with ⟨hone, q, hq⟩ | ⟨l, rfl, hl⟩
  · have hroom := (hi.decode (.inl hp)).room hdue.2.1
    rw [exec_of_pixelOf hq, completeToken_eq, if_pos hroom] at ht
    cases ht
    refine .decoding is (.inl rfl) (h.tail ⟨rfl, rfl, rfl, rfl, rfl, rfl⟩ rfl rfl rfl ?_)
    rw [tokenDone_outCursor, outCursor_advance hroom, tokenDone_runLeft, hone]
    ring
  · cases ht
    refine .decoding is (.inr rfl) (h.tail (t := s.runStarted l) ⟨rfl, rfl, rfl, rfl, rfl, rfl⟩ rfl rfl rfl ?_)
    rw [runStarted_outCursor, runStarted_runLeft, runCount_toNat hl, hi.runIdle hp]
    simp [pixelCount]

/-- Every step of the core keeps a decode on its conforming stream: a token of it is run, a repetition written, or the end
reached with success. -/
theorem Conforms.coreStep {size stop : Nat} {s t : State} (hi : MachineInv s) (h : Conforms size stop s)
    (ht : coreStep s = .next t) : Conforms size stop t := by
  cases h with
  | done h ho hpc =>
    rw [coreMove_idle (coreMove_of_next ht) h.1]
    exact .done h ho hpc
  | decoding tokens hdec h =>
    rcases hdec with hp | hp
    · cases tokens with
      | nil =>
        have hend : s.outCursor.toNat = size := by simpa [hi.runIdle hp, streamPixels] using h.pixels
        have hc := hi.clear (by simp [hp])
        rw [coreStep_loopEnd hp (hend.trans h.total.symm)] at ht
        cases ht
        exact .done ⟨rfl, rfl, hc.err, hc.code⟩ hend h.ends
      | cons i is => exact conforms_token hi h hp ht
    · have hrun := hi.runBusy hp
      have hfit := h.pixel_missing (by rw [← repeated_runLeft_succ hrun]; omega)
      have hroom : s.roomForPixel := hfit.trans (hi.decode (.inr hp)).fits
      simp only [Machine.coreStep, hp] at ht
      rw [runRepetition_eq, if_neg (Nat.not_lt.2 hfit), if_pos hroom] at ht
      cases ht
      exact .decoding tokens (repeated_decoding s) (h.repeated hrun hroom)

/-- Settles O57: every step stays on the stream, and the command ends (R134), which it does on the stream with success
only. -/
theorem conformingStreamDecodes : Obligations.ConformingStreamDecodes := by
  intro s tokens hi hm hp htok hpix hbytes hpad
  have hleft : StreamLeft s.decodedSize (s.pc.toNat + (streamBytes tokens).length) tokens s :=
    ⟨htok, rfl, by simpa [hi.runIdle hp] using hpix, hbytes, rfl, hpad⟩
  obtain ⟨t, hrun, hidle, hend⟩ := run_ends (fun _ _ => Conforms.coreStep) hi hm le_rfl
    (.decoding tokens (.inl hp) hleft)
  refine ⟨s.stepsLeft, t, hrun, ?_⟩
  cases hend with
  | done h ho hpc => exact ⟨h, ho, hpc⟩
  | decoding _ hdec _ => rcases hdec with h | h <;> cases hidle.symm.trans h

end Sys2Proof.Machine
end

section
/-! PROOFS. The literal tokens (42_literal_tokens.md), over what every non-run token does and leaves unchanged
(41_decode_loop.md R127, R128). -/

namespace Sys2Proof.Machine

/-! The non-run tokens. -/

/-- Settling a pixel replaces its alpha alone, by the token's alpha (R127). -/
theorem settleAlpha_eq (s : State) (q : Pixel) : s.settleAlpha q = ⟨q.r, q.g, q.b, tokenAlpha s q.a⟩ := by
  unfold State.settleAlpha tokenAlpha
  split <;> rfl

/-- A non-run token leaves alone what no token writes. -/
theorem tokenDone_sameOutsideToken (len : Nat) (q : Pixel) (s : State) : SameOutsideToken s (s.tokenDone len q) := by
  constructor <;> rfl

/-- Where OUT has room, a completed non-run token has the whole effect of its settled pixel. -/
theorem tokenDone_tokenEffect {s : State} (hw : Memory.wf s.outMem) (hroom : s.roomForPixel) (len : Nat) (q : Pixel) :
    TokenEffect len (s.settleAlpha q) s (s.tokenDone len q) where
  px := rfl
  cached := tokenDone_cacheAt_same len q s
  otherSlots := fun _ => tokenDone_cacheAt_other
  written := pixelWritten hw hroom rfl rfl
  pc := rfl
  phase := rfl
  runLeft := rfl
  frame := tokenDone_sameOutsideToken len q s

/-- Where OUT has room, a non-run token runs to the effect of the pixel it gives, with the token's alpha. -/
theorem exec_tokenEffect {i : Instr} {s : State} {len : Nat} {q : Pixel} (hq : pixelOf s i = some (len, q))
    (hw : Memory.wf s.outMem) (hroom : s.roomForPixel) :
    ∃ t, exec i s = .next t ∧ TokenEffect len ⟨q.r, q.g, q.b, tokenAlpha s q.a⟩ s t := by
  refine ⟨s.tokenDone len q, ?_, settleAlpha_eq s q ▸ tokenDone_tokenEffect hw hroom len q⟩
  rw [exec_of_pixelOf hq, completeToken_eq, if_pos hroom]

/-! The literal tokens. -/

/-- Settles O7: the token's pixel is its three bytes with the old alpha. -/
theorem rgbTokenEffect : Obligations.RgbTokenEffect :=
  fun r g b _ hw hroom => ⟨decodeToken_bytes (i := .rgb r g b) rfl rfl, exec_tokenEffect (i := .rgb r g b) rfl hw hroom⟩

/-- Settles O8: the token's pixel is its four bytes. -/
theorem rgbaTokenEffect : Obligations.RgbaTokenEffect :=
  fun r g b a _ hw hroom =>
    ⟨decodeToken_bytes (i := .rgba r g b a) rfl rfl, exec_tokenEffect (i := .rgba r g b a) rfl hw hroom⟩

end Sys2Proof.Machine
end

section
/-! PROOFS. The cache token (43_cache_token.md): the lookup's effect, and a decode that begins without what an earlier
command left. -/

namespace Sys2Proof.Machine

/-! The lookup. -/

/-- The byte of a lookup is its slot's number, the tag being 00 (30_encoding.md R72). -/
theorem index_bytes (i : BitVec 6) : (Instr.index i).bytes = [BitVec.ofNat 8 i.toNat] :=
  congrArg (fun b : Byte => [b]) (by decide +revert)

/-- Settles O9: the token's pixel is the entry as the state before the token holds it. -/
theorem indexTokenEffect : Obligations.IndexTokenEffect := by
  refine fun i s hw hroom => ⟨fun rest => ?_, exec_tokenEffect (i := .index i) rfl hw hroom⟩
  have hdecode := decodeToken_bytes (i := .index i) rfl rfl rest
  rwa [index_bytes] at hdecode

/-! The decode that begins anew. -/

/-- What a decode without a header takes from the state before it: the lengths, the start, the descriptor, IN, the
parameters and the host's moves are the same in `s` and `t`. -/
structure SameDecodeInputs (s t : State) : Prop where
  inLen : t.inLen = s.inLen
  outLen : t.outLen = s.outLen
  start : t.start = s.start
  descriptor : SameDescriptor s t
  inMem : t.inMem = s.inMem
  params : t.params = s.params
  moves : t.moves = s.moves

namespace SameDecodeInputs

variable {s t : State}

/-- The placement of the buffers is that of the parameters and the lengths. -/
theorem canLaunch (h : SameDecodeInputs s t) (hs : s.canLaunch) (ht : t.phase = .idle) : t.canLaunch := by
  refine ⟨ht, ?_⟩
  unfold State.buffersOverlap
  rw [h.params, h.inLen, h.outLen]
  exact hs.2

/-- A descriptor start initialised from the same inputs: every register is cleared, loaded or one of the inputs, and the
pixel cursor is 0, below which OUT has no byte. -/
theorem initDecode_sameDecode (h : SameDecodeInputs s t) (c : Command) :
    SameDecode ((s.beginCommand c).loadDecode s.start).initDecode
      ((t.beginCommand c).loadDecode t.start).initDecode := by
  obtain ⟨hin, hout, hstart, ⟨hw, hh, hm⟩, hmem, hp, hmoves⟩ := h
  refine ⟨?_, fun a ha => absurd ha (Nat.not_lt_zero a)⟩
  simp only [State.initDecode, State.loadDecode, State.beginCommand, hin, hout, hstart, hw, hh, hm, hmem, hp, hmoves]

end SameDecodeInputs

/-- Past both exits the start without a header loads the latches and initialises (41_decode_loop.md R120, R122). -/
theorem descriptorDecode_eq_initDecode {s : State} (hw : s.width ≠ 0) (hh : s.height ≠ 0)
    (hfits : s.width.toNat * s.height.toNat * (channelsOfMode s.mode).count ≤ s.outLen.toNat) :
    s.descriptorDecode = ((s.beginCommand .decodeWithDescriptor).loadDecode s.start).initDecode :=
  (if_neg (not_or.2 ⟨hw, hh⟩)).trans (if_neg (Nat.not_lt.2 hfits))

/-- Settles O59: both starts pass the exits and initialise, from the same inputs. -/
theorem earlierDecodeNeverReachesTheNext : Obligations.EarlierDecodeNeverReachesTheNext := by
  intro s₁ s₂ hs₁ hidle hin hout hstart hdesc hmem hp hmoves hw hh hfits
  have hinputs : SameDecodeInputs s₁ s₂ := ⟨hin, hout, hstart, hdesc, hmem, hp, hmoves⟩
  obtain ⟨hw₂, hh₂, hm₂⟩ := hdesc
  rw [← channelsOfMode_count] at hfits
  refine ⟨_, _, exec_decodeWithDescriptor hs₁, exec_decodeWithDescriptor (hinputs.canLaunch hs₁ hidle), ?_⟩
  rw [descriptorDecode_eq_initDecode hw hh hfits,
    descriptorDecode_eq_initDecode (hw₂ ▸ hw) (hh₂ ▸ hh) (by rwa [hw₂, hh₂, hm₂, hout])]
  exact hinputs.initDecode_sameDecode .decodeWithDescriptor

end Sys2Proof.Machine
end

section
/-! PROOFS. The delta tokens (44_delta_tokens.md): the addition modulo 256 on the three lanes (R160), and the alpha that it
keeps (R164). -/

namespace Sys2Proof.Machine

/-! The addition on a channel. -/

/-- The addition on a channel is that of integers modulo 256, whatever the delta (R160). -/
theorem addWrap_toNat (c : Byte) (d : Int) : ((addWrap c d).toNat : Int) = (c.toNat + d) % 256 := by
  rw [addWrap, BitVec.toNat_ofInt]
  exact Int.toNat_of_nonneg (Int.emod_nonneg _ (by decide))

/-! The tokens' bytes, as numbers (30_encoding.md R72). -/

theorem diff_bytes (dr dg db : BitVec 2) :
    (Instr.diff dr dg db).bytes = [BitVec.ofNat 8 (64 + 16 * dr.toNat + 4 * dg.toNat + db.toNat)] :=
  congrArg (fun b : Byte => [b]) (by decide +revert)

theorem luma_bytes (dg : BitVec 6) (drg dbg : BitVec 4) :
    (Instr.luma dg drg dbg).bytes = [BitVec.ofNat 8 (128 + dg.toNat), BitVec.ofNat 8 (16 * drg.toNat + dbg.toNat)] :=
  congrArg₂ (fun b c : Byte => [b, c]) (by decide +revert) (by decide +revert)

/-- The decoder takes a token off the stream by its bytes as they are written out, whatever follows them. -/
theorem decodeToken_of_bytes {i : Instr} {bs : List Byte} (hbs : i.bytes = bs) (hw : i.wellFormed = true)
    (ht : i.isToken = true) (rest : List Byte) : decodeToken (bs ++ rest) = .ok (i, rest) :=
  hbs ▸ decodeToken_bytes hw ht rest

/-! The effects. -/

/-- Settles O10: each lane is the addition of its field minus 2. -/
theorem diffTokenEffect : Obligations.DiffTokenEffect := by
  refine fun dr dg db s hw hroom => ⟨decodeToken_of_bytes (diff_bytes dr dg db) rfl rfl, ?_⟩
  obtain ⟨t, ht, heffect⟩ := exec_tokenEffect (i := .diff dr dg db) rfl hw hroom
  exact ⟨t, _, ht, addWrap_toNat .., addWrap_toNat .., addWrap_toNat .., rfl, heffect⟩

/-- Settles O11: the green lane is the addition of `vg`, the other two that of their fields minus 8 plus `vg`. -/
theorem lumaTokenEffect : Obligations.LumaTokenEffect := by
  refine fun dg drg dbg s hw hroom => ⟨decodeToken_of_bytes (luma_bytes dg drg dbg) rfl rfl, ?_⟩
  obtain ⟨t, ht, heffect⟩ := exec_tokenEffect (i := .luma dg drg dbg) rfl hw hroom
  exact ⟨t, _, ht, addWrap_toNat .., addWrap_toNat .., addWrap_toNat .., rfl, heffect⟩

/-! What the two delta tokens have in common. -/

/-- A non-run token answers a next state exactly where OUT has room, and then the completed one. -/
theorem exec_eq_next_iff {i : Instr} {s t : State} {len : Nat} {q : Pixel} (hq : pixelOf s i = some (len, q)) :
    exec i s = .next t ↔ s.roomForPixel ∧ t = s.tokenDone len q := by
  rw [exec_of_pixelOf hq, completeToken_eq]
  by_cases hroom : s.roomForPixel <;> simp [hroom, eq_comm]

/-- `OP_DIFF` and `OP_LUMA` give the running pixel with a delta added to each lane (R161, R163). -/
theorem pixelOf_delta {i : Instr} (s : State)
    (hi : (∃ dr dg db, i = .diff dr dg db) ∨ ∃ dg drg dbg, i = .luma dg drg dbg) :
    ∃ len dr dg db, pixelOf s i = some (len, addDeltas s.px dr dg db) := by
  obtain ⟨dr, dg, db, rfl⟩ | ⟨dg, drg, dbg, rfl⟩ := hi
  · exact ⟨_, _, _, _, rfl⟩
  · exact ⟨_, _, _, _, rfl⟩

/-- Settles O13: the lanes are three additions, and a completed token leaves the status alone. -/
theorem deltaAdditionWraps : Obligations.DeltaAdditionWraps := by
  refine ⟨fun q dr dg db => ⟨addWrap_toNat .., addWrap_toNat .., addWrap_toNat .., rfl⟩, fun i s hroom hi => ?_⟩
  obtain ⟨len, dr, dg, db, hq⟩ := pixelOf_delta s hi
  have hframe := tokenDone_sameOutsideToken len (addDeltas s.px dr dg db) s
  exact ⟨_, (exec_eq_next_iff hq).2 ⟨hroom, rfl⟩, hframe.done, hframe.err, hframe.code⟩

/-- While a decode is under way the running pixel's alpha is already the token's: where `FORCED_255` rules it, it is 255
(R164). -/
theorem DecodeInv.tokenAlpha_px {s : State} (hd : DecodeInv s) : tokenAlpha s s.px.a = s.px.a :=
  ite_eq_right_iff.2 fun ⟨hforced, hthree⟩ => (hd.alpha hforced hthree).symm

/-- Settles O14: the token keeps the lane of alpha, and the invariant says what it was. -/
theorem deltaTokensKeepAlpha : Obligations.DeltaTokensKeepAlpha := by
  intro i s t hinv hloop hi ht
  obtain ⟨len, dr, dg, db, hq⟩ := pixelOf_delta s hi
  obtain ⟨-, rfl⟩ := (exec_eq_next_iff hq).1 ht
  have hd : DecodeInv s := hinv.decode (.inl hloop)
  have hkept : (s.settleAlpha (addDeltas s.px dr dg db)).a = s.px.a := by
    rw [settleAlpha_eq]
    exact hd.tokenAlpha_px
  exact ⟨hkept, fun hthree hforced => ⟨hd.alpha hforced hthree, hkept.trans (hd.alpha hforced hthree)⟩⟩

end Sys2Proof.Machine
end

section
/-! PROOFS. The run token (45_run_token.md): its effect (R171), its repetitions (R172, R173), and the run fused into one
transition (R174). -/

namespace Sys2Proof.Machine

/-! The token. -/

/-- The byte of a run of `L + 1` repetitions, the tag being 11 (30_encoding.md R72). -/
theorem run_bytes (l : BitVec 6) : (Instr.run l).bytes = [BitVec.ofNat 8 (192 + l.toNat)] :=
  congrArg (fun b : Byte => [b]) (by decide +revert)

theorem run_wellFormed {l : BitVec 6} (hl : l.toNat ≤ 61) : (Instr.run l).wellFormed = true := decide_eq_true hl

/-- Settles O12: a field of at most 61 is a well-formed run, and starting the run writes three registers. -/
theorem runTokenEffect : Obligations.RunTokenEffect :=
  fun l s hl =>
    ⟨decodeToken_of_bytes (run_bytes l) (run_wellFormed hl) rfl, s.runStarted l, rfl, runCount_toNat hl, rfl⟩

/-! One repetition. -/

/-- A repetition that would pass `decoded_size` fails (R172). -/
theorem coreStep_runEnd {s : State} (hp : s.phase = .run) (hpast : s.decodedSize < s.outCursor.toNat + s.ch.count) :
    coreStep s = .next (s.raise .outputIsTooSmall) := by
  simp only [coreStep, hp]
  rw [runRepetition_eq, if_pos hpast]

/-- A repetition that fits writes the pixel once more (R172). -/
theorem coreStep_repeated {s : State} (hp : s.phase = .run) (hfit : s.outCursor.toNat + s.ch.count ≤ s.decodedSize)
    (hroom : s.roomForPixel) : coreStep s = .next s.repeated := by
  simp only [coreStep, hp]
  rw [runRepetition_eq, if_neg (Nat.not_lt.2 hfit), if_pos hroom]
  rfl

/-- A repetition leaves alone what no token writes. -/
theorem repeated_sameOutsideToken (s : State) : SameOutsideToken s s.repeated := by
  constructor <;> rfl

/-- The loop is due again after the last repetition. -/
theorem repeated_phase_eq (s : State) : s.repeated.phase = if s.runLeft = 1 then .loop else .run :=
  if_congr sub_eq_zero rfl rfl

/-- Settles O31: the two branches of a repetition. -/
theorem runRepetitionStep : Obligations.RunRepetitionStep := by
  intro s hm hp
  rw [step_core hm]
  refine ⟨coreStep_runEnd hp, fun hfit hroom hw => ⟨s.repeated, coreStep_repeated hp hfit hroom, ?_⟩⟩
  exact ⟨pixelWritten hw hroom rfl rfl, repeated_sameOutsideToken s, ⟨rfl, rfl⟩, rfl, rfl, repeated_phase_eq s⟩

theorem runLeft_pos {s : State} (hrun : s.runLeft ≠ 0) : 0 < s.runLeft.toNat :=
  Nat.pos_of_ne_zero fun h0 => hrun (BitVec.eq_of_toNat_eq h0)

/-- Settles O32: a repetition that fits raises nothing; one that does not finds the aligned pixel cursor at the end. -/
theorem failedRunStandsAtTheEnd : Obligations.FailedRunStandsAtTheEnd := by
  intro s t hi hm hp ht herr
  have hd : DecodeInv s := hi.decode (.inr hp)
  rw [step_core hm] at ht
  by_cases hfit : s.outCursor.toNat + s.ch.count ≤ s.decodedSize
  · rw [coreStep_repeated hp hfit (hfit.trans hd.fits)] at ht
    cases ht
    have hclear : s.err = false := (hi.clear (by simp [hp])).err
    cases hclear.symm.trans herr
  · rw [coreStep_runEnd hp (Nat.not_le.1 hfit)] at ht
    cases ht
    have hend : s.outCursor.toNat = s.decodedSize := by
      by_contra hne
      exact hfit (hd.pixel_fits hne)
    exact ⟨rfl, hend, runLeft_pos (hi.runBusy hp), hi.runFits hp hend⟩

/-! The fused run. -/

/-- `s` with `n` repetitions of a run written at once, which leaves the phase as it is. -/
def State.repeatedTimes (n : Nat) (s : State) : State :=
  { s with
    outMem := Memory.writeBytes s.outMem s.outCursor.toNat (List.replicate n (outputBytes s.ch s.px)).flatten
    outCursor := s.outCursor + BitVec.ofNat 32 (n * s.ch.count)
    runLeft := s.runLeft - BitVec.ofNat 6 n }

/-- The fused run writes the repetitions that fit, and fails where some are left. -/
theorem fusedRun_eq (s : State) :
    fusedRun s =
      if s.fittingRepetitions < s.runLeft.toNat then
        (s.repeatedTimes s.fittingRepetitions).raise .outputIsTooSmall
      else { s.repeatedTimes s.fittingRepetitions with phase := .loop } := rfl

/-- Writing no repetition changes nothing. -/
theorem repeatedTimes_zero (s : State) : s.repeatedTimes 0 = s := by
  simp [State.repeatedTimes, Memory.writeBytes]

/-- One repetition and then `n` more are `n + 1` repetitions, but for the phase that the first one left. -/
theorem repeatedTimes_repeated {s : State} (hroom : s.roomForPixel) (n : Nat) :
    s.repeated.repeatedTimes n = { s.repeatedTimes (n + 1) with phase := s.repeated.phase } := by
  have hcursor : s.outCursor + BitVec.ofNat 32 s.ch.count + BitVec.ofNat 32 (n * s.ch.count) =
      s.outCursor + BitVec.ofNat 32 ((n + 1) * s.ch.count) := by
    rw [Nat.add_one_mul, Nat.add_comm, BitVec.ofNat_add, add_assoc]
  have hleft : s.runLeft - 1 - BitVec.ofNat 6 n = s.runLeft - BitVec.ofNat 6 (n + 1) := by
    rw [Nat.add_comm, BitVec.ofNat_add, sub_sub]
    rfl
  simp only [State.repeatedTimes, repeated_outMem, repeated_outCursor, repeated_runLeft, repeated_ch, repeated_px,
    outCursor_advance hroom, List.replicate_succ, List.flatten_cons, Memory.writeBytes_append, outputBytes_length, hcursor,
    hleft]
  rfl

/-- No repetition fits where the next one would pass `decoded_size`. -/
theorem fittingRepetitions_eq_zero {s : State} (hpast : s.decodedSize < s.outCursor.toNat + s.ch.count) :
    s.fittingRepetitions = 0 := by
  have hpos := s.ch.count_pos
  have hdiv : (s.decodedSize - s.outCursor.toNat) / s.ch.count = 0 := Nat.div_eq_of_lt (by omega)
  rw [State.fittingRepetitions, hdiv, Nat.min_zero]

/-- A repetition that fits is one of those that fit. -/
theorem repeated_fittingRepetitions {s : State} (hrun : s.runLeft ≠ 0)
    (hfit : s.outCursor.toNat + s.ch.count ≤ s.decodedSize) (hroom : s.roomForPixel) :
    s.fittingRepetitions = s.repeated.fittingRepetitions + 1 := by
  have hdiv : (s.decodedSize - s.outCursor.toNat) / s.ch.count =
      (s.decodedSize - (s.outCursor.toNat + s.ch.count)) / s.ch.count + 1 := by
    rw [← Nat.sub_sub]
    exact Nat.div_eq_sub_div s.ch.count_pos (by omega)
  simp only [State.fittingRepetitions, repeated_outCursor, outCursor_advance hroom, repeated_ch, repeated_decodedSize, hdiv,
    ← repeated_runLeft_succ hrun, Nat.add_min_add_right]

/-- A fused run may write its first repetition by itself. -/
theorem fusedRun_repeated {s : State} (hrun : s.runLeft ≠ 0) (hfit : s.outCursor.toNat + s.ch.count ≤ s.decodedSize)
    (hroom : s.roomForPixel) : fusedRun s.repeated = fusedRun s := by
  rw [fusedRun_eq, fusedRun_eq, repeated_fittingRepetitions hrun hfit hroom, repeatedTimes_repeated hroom,
    ← repeated_runLeft_succ hrun]
  exact if_congr Nat.add_lt_add_iff_right.symm rfl rfl

/-- How many core steps a run takes: one for each repetition that fits, and one more that fails where some are left. -/
def State.runSteps (s : State) : Nat :=
  s.fittingRepetitions + if s.fittingRepetitions < s.runLeft.toNat then 1 else 0

theorem repeated_runSteps {s : State} (hrun : s.runLeft ≠ 0) (hfit : s.outCursor.toNat + s.ch.count ≤ s.decodedSize)
    (hroom : s.roomForPixel) : s.runSteps = s.repeated.runSteps + 1 := by
  rw [State.runSteps, State.runSteps, repeated_fittingRepetitions hrun hfit hroom, ← repeated_runLeft_succ hrun]
  simp only [Nat.add_lt_add_iff_right]
  omega

/-- With no repetition left there is no step to take, and the fused run changes nothing. -/
theorem fusedRun_of_done {s : State} (hp : s.phase = .loop) (h0 : s.runLeft = 0) : s.runSteps = 0 ∧ fusedRun s = s := by
  have hnone : s.fittingRepetitions = 0 := by simp [State.fittingRepetitions, h0]
  refine ⟨by simp [State.runSteps, hnone, h0], ?_⟩
  rw [fusedRun_eq, hnone, repeatedTimes_zero, if_neg (by simp [h0]), ← hp]

/-- With repetitions left of which none fits, the one step to take fails, and so does the fused run. -/
theorem fusedRun_of_past {s : State} (hrun : s.runLeft ≠ 0) (hpast : s.decodedSize < s.outCursor.toNat + s.ch.count) :
    s.runSteps = 1 ∧ fusedRun s = s.raise .outputIsTooSmall := by
  have hnone := fittingRepetitions_eq_zero hpast
  have hleft := runLeft_pos hrun
  refine ⟨by rw [State.runSteps, hnone, if_pos hleft], ?_⟩
  rw [fusedRun_eq, hnone, repeatedTimes_zero, if_pos hleft]

/-- A run stepped to its end is the fused run: by induction on the repetitions left, down to the state after the last one,
where the loop is due and no step is to be taken. -/
theorem run_runSteps {n : Nat} {s : State} (hn : s.runLeft.toNat = n) (hi : MachineInv s) (hm : s.moves = [])
    (hdec : s.decoding) : Host.Core.run core s.runSteps s = .next (fusedRun s) := by
  induction n generalizing s with
  | zero =>
    have h0 : s.runLeft = 0 := BitVec.eq_of_toNat_eq hn
    have hp : s.phase = .loop := hdec.resolve_right fun hp => hi.runBusy hp h0
    obtain ⟨hsteps, hfused⟩ := fusedRun_of_done hp h0
    rw [hsteps, hfused]
    rfl
  | succ n ih =>
    have hrun : s.runLeft ≠ 0 := fun h0 => absurd hn (by simp [h0])
    have hp : s.phase = .run := hdec.resolve_left fun hp => hrun (hi.runIdle hp)
    by_cases hfit : s.outCursor.toNat + s.ch.count ≤ s.decodedSize
    · have hroom : s.roomForPixel := hfit.trans (hi.decode hdec).fits
      have hleft : s.repeated.runLeft.toNat = n := Nat.succ_injective ((repeated_runLeft_succ hrun).trans hn)
      rw [repeated_runSteps hrun hfit hroom, run_succ_of_coreStep hm (coreStep_repeated hp hfit hroom),
        ← fusedRun_repeated hrun hfit hroom]
      exact ih hleft (coreMove_inv hi (.repetition hp hfit hroom)) hm (repeated_decoding s)
    · have hpast := Nat.not_le.1 hfit
      obtain ⟨hsteps, hfused⟩ := fusedRun_of_past hrun hpast
      rw [hsteps, hfused]
      exact run_succ_of_coreStep hm (coreStep_runEnd hp hpast) 0

/-- Settles O33: each repetition is one that the fused run may write by itself, and where none fits both fail. -/
theorem runEqualsItsFusedForm : Obligations.RunEqualsItsFusedForm :=
  fun _ hi hm hp => run_runSteps rfl hi hm (.inr hp)

end Sys2Proof.Machine
end

section
/-! PROOFS. Exceptions (60_exceptions.md): which command ends with which error (R180), and waiting in IDLE (R195). -/

namespace Sys2Proof.Machine

/-! Waiting. -/

/-- In IDLE the core takes no step (R137, R195). -/
theorem coreStep_idle {s : State} (hp : s.phase = .idle) : coreStep s = .next s := by
  simp only [coreStep, hp]

/-- Settles O44: either form of the core's turn is the core's step, and the core waits. -/
theorem idleCoreWaits : Obligations.IdleCoreWaits := by
  intro s hp
  refine ⟨fun hm => ?_, fun rest hm => ?_⟩
  · rw [step_core hm, coreStep_idle hp]
  · rw [step_host hm]
    exact coreStep_idle hp

/-! The errors of each command. -/

/-- The errors with which a command's steps after its start can end (R180): the header's for the two commands that parse
one, those of the entry and the loop for the two that decode. -/
def Command.raises : Command → ErrorKind → Prop
  | .parseHeader, e => e ≠ .outputIsTooSmall
  | .decode, _ => True
  | .decodeWithDescriptor, e => e = .dataTooSmall ∨ e = .outputIsTooSmall

theorem raises_of_header {c : Command} {e : ErrorKind} (hc : c ≠ .decodeWithDescriptor) (he : e ≠ .outputIsTooSmall) :
    c.raises e := by
  cases c
  case parseHeader => exact he
  case decode => trivial
  case decodeWithDescriptor => exact absurd rfl hc

theorem raises_of_decoding {c : Command} {e : ErrorKind} (hc : c ≠ .parseHeader)
    (he : e = .dataTooSmall ∨ e = .outputIsTooSmall) : c.raises e := by
  cases c
  case parseHeader => exact absurd rfl hc
  case decode => trivial
  case decodeWithDescriptor => exact he

/-- A decode entry that ends with an error failed the buffer check (R121). -/
theorem decodeEntry_code {s : State} {p : Word32} (hs : s.err = false) (herr : (s.decodeEntry p).err = true) :
    (s.decodeEntry p).code = ErrorKind.outputIsTooSmall.code := by
  rcases decodeEntry_cases p s with ⟨_, e⟩ | ⟨_, _, e⟩ | ⟨_, _, e⟩ <;> rw [e] at herr ⊢
  case inr.inl => rfl
  all_goals cases hs.symm.trans herr

/-- A header that passes ends with an error only where the command decodes, at the entry. -/
theorem acceptHeader_code {s : State} {w hgt : Word32} {mode : BitVec 2} (hs : s.err = false)
    (herr : (s.acceptHeader w hgt mode).err = true) :
    s.cmd ≠ .parseHeader ∧ (s.acceptHeader w hgt mode).code = ErrorKind.outputIsTooSmall.code := by
  unfold State.acceptHeader at herr ⊢
  cases hc : s.cmd <;> rw [hc] at herr
  case parseHeader => cases hs.symm.trans herr
  all_goals exact ⟨nofun, decodeEntry_code (s := s.setDescriptor w hgt mode) hs herr⟩

/-- A move of the core that leaves `ERR` set from a command under way raised an error of that command. -/
theorem coreMove_raises {s t : State} (hi : MachineInv s) (hp : s.phase ≠ .idle) (h : CoreMove s t)
    (herr : t.err = true) : ∃ e, s.cmd.raises e ∧ t.code = e.code := by
  have hclear : s.err = false := (hi.clear hp).err
  cases h
  case headerError e hph he => exact ⟨e, raises_of_header (hi.header hph) he, rfl⟩
  case headerDone =>
    obtain ⟨hc, hcode⟩ := acceptHeader_code hclear herr
    exact ⟨.outputIsTooSmall, raises_of_decoding hc (.inr rfl), hcode⟩
  case guard hph _ _ => exact ⟨.dataTooSmall, raises_of_decoding (hi.decode (.inl hph)).command (.inl rfl), rfl⟩
  case short hdue _ => exact ⟨.dataTooSmall, raises_of_decoding (hi.decode (.inl hdue.1)).command (.inl rfl), rfl⟩
  case runEnd hph _ => exact ⟨.outputIsTooSmall, raises_of_decoding (hi.decode (.inr hph)).command (.inr rfl), rfl⟩
  case wait | loopEnd | token | runToken | repetition => cases hclear.symm.trans herr

/-- A command start that an idle machine answers with a next state had its buffers apart (R51). -/
theorem canLaunch_of_next {i : Instr} (hi : i.isToken = false) {s t : State} (hp : s.phase = .idle)
    (h : exec i s = .next t) : s.canLaunch := by
  refine ⟨hp, Bool.eq_false_iff.2 fun ho => ?_⟩
  obtain ⟨u, hu⟩ := exec_command hi s
  rw [if_neg (not_not.2 hp), if_pos ho, h] at hu
  cases hu

/-- Settles O53: the codes of R180 are those of the errors the command raises, and a start of `DECODE_WITH_DESCRIPTOR`,
which clears `ERR`, sets it only at the entry's buffer check. -/
theorem commandsRaiseTheirOwnErrors : Obligations.CommandsRaiseTheirOwnErrors := by
  refine ⟨fun s t hi hm hp h herr => ?_, fun s t hp h herr => ?_⟩
  · obtain ⟨e, he, hcode⟩ := coreMove_raises hi hp (coreMove_of_next (step_core hm ▸ h)) herr
    rw [hcode]
    cases hc : s.cmd <;> rw [hc] at he
    case parseHeader =>
      cases e
      case outputIsTooSmall => exact absurd rfl he
      all_goals simp [ErrorKind.code]
    case decode => cases e <;> simp [ErrorKind.code]
    case decodeWithDescriptor => rcases he with rfl | rfl <;> simp [ErrorKind.code]
  · cases (exec_decodeWithDescriptor (canLaunch_of_next rfl hp h)).symm.trans h
    exact decodeEntry_code (beginCommand_err ..) herr

end Sys2Proof.Machine
end

section
/-! PROOFS. Reset and hazards (70_reset_and_hazards.md): the reset input (R200), and the colour cache read right after it
is written (R205). -/

namespace Sys2Proof.Machine

/-! The reset. -/

/-- Settles O45: the machine at reset is idle, both spaces are empty, and every cache entry is transparent black. -/
theorem invariantAtReset : Obligations.InvariantAtReset := by
  have hstorage : StorageInv State.reset :=
    { legal := by decide
      inWf := by decide
      outWf := by decide
      runBound := by decide
      cached := fun i => .inl (initDecode_cacheAt State.reset i) }
  exact machineInv_of_idle hstorage rfl (by decide) (by decide) (by decide)

/-- Settles O43: the host's oldest move is taken whatever the phase, and the reset keeps what is none of the block's
registers. -/
theorem resetAbandonsTheCommand : Obligations.ResetAbandonsTheCommand := by
  intro s rest hmoves
  calc step s
    _ = hostStep .reset { s with moves := rest } := step_host hmoves
    _ = .next ({ s with moves := rest } : State).assertReset := rfl

/-! The read after the write-back. -/

/-- Where a slot holds a settled pixel that hashes to it, the lookup of the slot gives that pixel and leaves it there. -/
theorem index_of_cached {s : State} {q : Pixel} (hcached : s.cacheAt (s.params.hash q) = q)
    (hsettled : s.settleAlpha q = q) (hroom : s.roomForPixel) :
    ∃ t, exec (.index (s.params.hash q)) s = .next t ∧ t.px = q ∧ t.cacheAt (s.params.hash q) = q := by
  refine ⟨s.tokenDone 1 q, (exec_eq_next_iff ?_).2 ⟨hroom, rfl⟩, hsettled, ?_⟩
  · rw [pixelOf, hcached]
  · have hsame := tokenDone_cacheAt_same 1 q s
    rwa [hsettled] at hsame

/-- Settles O15: the token before wrote its settled pixel back at that pixel's hash, and settling it again changes
nothing. -/
theorem lookupSeesThePreviousWriteBack : Obligations.LookupSeesThePreviousWriteBack := by
  intro i s t htoken hrun ht hroom
  obtain ⟨len, q, hq⟩ := pixelOf_of_isToken htoken hrun s
  obtain ⟨-, rfl⟩ := (exec_eq_next_iff hq).1 ht
  exact index_of_cached (tokenDone_cacheAt_same len q s) (settleAlpha_settled q rfl rfl) hroom

end Sys2Proof.Machine
end
